-- ==== Sys2Proof/Word.lean ====
section
/-! DEFINITION. The plain data the instructions speak of: words, text, register names, operands. -/

namespace Sys2Proof

/-- An `int32` (R8, R116): two's complement, 32 bits. -/
abbrev Word := BitVec 32

/-- One byte of a host's dump of data memory (R44). -/
abbrev Byte := BitVec 8

/-- The content of one slot of the instruction store (R13, R60). -/
abbrev Line := List Char

/-- A piece of a line without spaces (R13); the empty list is the empty token. -/
abbrev Token := List Char

/-- The six registers (R21). -/
inductive Reg where
  | eax | edx | ecx | esp | ebp | eip
  deriving DecidableEq, Repr

/-- An operand (R90). The sentinel of the register kind is never read and is not modelled (U14). -/
inductive Operand where
  | register (r : Reg)
  | memory (r : Reg) (offset : Word)
  | constant (v : Word)
  | invalid
  deriving DecidableEq, Repr

/-- The two token shapes that R73 leaves without a meaning. -/
inductive Malformed where
  /-- R73 case 1: begins with `$` and is not a constant token. -/
  | constantShape
  /-- R73 case 2: has a parenthesis in a shape that is no memory token. -/
  | parenthesisShape
  deriving DecidableEq, Repr

/-- What the operand decoder answers (R91): an operand, or "not admitted". -/
inductive Decoded where
  | operand (o : Operand)
  | malformed (why : Malformed)
  deriving DecidableEq, Repr

end Sys2Proof
end

