-- ==== Sys2Proof/Config.lean ====
section
/-! DEFINITION. The parameters fixed when a machine is created (R5). They are carried in State, so
that a statement over all states holds for every value of them (log 1). -/

namespace Sys2Proof

/-- The parameters of R5. -/
structure Config where
  /-- `MEM_WORDS`, the number of words of data memory (D1). -/
  memWords : Nat
  /-- `ISTORE_SLOTS`, the number of slots of the instruction store (D2). -/
  istoreSlots : Nat
  /-- `STACK_INIT`, the reset value of `ESP` and of `EBP` (D4). -/
  stackInit : Word
  /-- `LABEL_SIGIL`, the first character of a label token (D10). -/
  labelSigil : Char
  deriving DecidableEq, Repr

/-- The constraints of R5 on the parameters (D37); printable ASCII is 21H to 7EH once the space is out. -/
abbrev Config.wf (c : Config) : Prop :=
  1 ≤ c.memWords ∧ c.memWords ≤ 2 ^ 29 - 1 ∧
  1 ≤ c.istoreSlots ∧ c.istoreSlots ≤ 2 ^ 29 - 1 ∧
  0x21 ≤ c.labelSigil.toNat ∧ c.labelSigil.toNat ≤ 0x7E ∧
  c.labelSigil ≠ '%' ∧ c.labelSigil ≠ '$' ∧ c.labelSigil ≠ '('

/-- The spec's test configuration `TC` (R5), used by the reset state. DESIGN CHOICE (log 1, log 2),
unsafe: no rule depends on `TC`, so a claim about these very numbers is about this configuration only. -/
def Config.tc : Config :=
  { memWords := 256, istoreSlots := 64, stackInit := 1024#32, labelSigil := '.' }

end Sys2Proof
end

