-- ==== Sys2Proof/Syntax.lean ====
section
/-! DEFINITION. The decoded instruction (R79), one constructor for each row of spec/opcode_table.json. -/

namespace Sys2Proof

/-- The decoded instruction of R79. The operand tokens stay text: the executors decode them (R152). -/
inductive Instr where
  | movl (t1 t2 : Token)
  | addl (t1 t2 : Token)
  | pushl (t1 : Token)
  | popl (t1 : Token)
  | cmpl (t1 t2 : Token)
  | jmp (t1 : Token)
  | je (t1 : Token)
  | jne (t1 : Token)
  | jl (t1 : Token)
  | jg (t1 : Token)
  | call (t1 : Token)
  | ret
  | endMarker
  | skip
  deriving DecidableEq, Repr

end Sys2Proof
end

