-- ==== Sys2Proof/Machine/State.lean ====
section
/-! DEFINITION. The state of the machine (R20) as plain data, why a step can stop, and reset (R34). -/

namespace Sys2Proof.Machine

/-- The result of an executor (R11, R170). -/
inductive Res where
  | ok
  | instrError
  | memError
  | pcError
  deriving DecidableEq, Repr

/-- The fault flag (R28). -/
inductive FaultFlag where
  | none
  | fetchFault
  deriving DecidableEq, Repr

/-- The six registers (R21), one home each; `eip` is the program counter (R24). -/
structure Regs where
  eax : Word
  edx : Word
  ecx : Word
  esp : Word
  ebp : Word
  eip : Word
  deriving DecidableEq, Repr

/-- Data memory (R30) as the bytes a host would dump (R44): addresses strictly rising, no byte 0 listed. -/
abbrev Memory := List Host.Cell

/-- The whole state of the machine (R20). -/
structure State where
  /-- The parameters of R5; no step changes them (R35). -/
  cfg : Config
  /-- The registers (R21). -/
  regs : Regs
  /-- The comparison result (R27). -/
  cmp : Word
  /-- Data memory (R30): word `k` is the bytes `4*k` to `4*k + 3`, the lowest byte first (D13). -/
  mem : Memory
  /-- The populated lines of the instruction store in slot order (R31); `ICOUNT` is their number. -/
  store : List Line
  /-- Set by `END` (R28, R153). -/
  halted : Bool
  /-- Set by a fetch outside the store (R28, R151). -/
  fault : FaultFlag
  /-- The status output of the last step (R12); no rule reads it. -/
  res : Option Res
  deriving DecidableEq, Repr

/-- Why no step is defined in a state (R150). Raised by `step` alone, never by an instruction. Both are
safe: the model stops where the machine takes no step. -/
inductive Fault where
  /-- Raised by `step` in a state whose `halted` is set: the normal end of a run (R153, R157, R201). Safe. -/
  | halted
  /-- Raised by `step` in a state whose `fault` is `FetchFault` (R151, R157). Safe. -/
  | fetchFault
  deriving DecidableEq, Repr

/-- Why an instruction has no meaning. -/
inductive Refusal where
  /-- Raised by an arm of `exec` whose instruction has no meaning yet; no arm raises it. Safe. -/
  | notModelled (mnemonic : String)
  /-- Raised by MOVL, ADDL, PUSHL, POPL and CMPL when a token they decode is one of the malformed
  tokens of R73, which the spec gives no meaning and has a model refuse (U1, log 12). `launch` refuses
  a program with such a token as a whole, so no run from a launch comes here. Safe. -/
  | malformedOperand (why : Malformed) (token : Token)
  deriving DecidableEq, Repr

/-- The state after reset (R34, R190) of a machine with parameters `c` and launch memory `memInit`
(`MEM_INIT`), before the loader has placed any line. -/
def State.resetWith (c : Config) (memInit : Memory) : State :=
  { cfg := c
    regs := { eax := 0#32, edx := 0#32, ecx := 0#32, esp := c.stackInit, ebp := c.stackInit,
              eip := 0#32 }
    cmp := 0#32
    mem := memInit
    store := []
    halted := false
    fault := .none
    res := none }

/-- The reset state of the spec's test configuration with nothing listed in memory and no line loaded.
DESIGN CHOICE (log 1, log 2, log 3), unsafe for claims about this very state. -/
def State.reset : State := State.resetWith Config.tc []

end Sys2Proof.Machine
end

