-- ==== Sys2Proof/Machine/Ops.lean ====
section
/-! DEFINITION. The named operations over registers, memory and the program counter; raising an error
and taking the fetch fault. -/

namespace Sys2Proof.Machine

/-! ### Numbers (R8) -/

/-- `wrap32(z)`: the one int32 congruent to `z` modulo 2^32 (R8, D14). -/
def wrap32 (z : Int) : Word := BitVec.ofInt 32 z

/-- `idx(a) = floor(a / 4)` (R8, D18): the divisor is positive, so integer division is the floor. -/
def idx (a : Int) : Int := a / 4

/-! ### Registers (R9, R21, R23) -/

/-- Register `r` of a register file. -/
def Regs.get (g : Regs) : Reg → Word
  | .eax => g.eax
  | .edx => g.edx
  | .ecx => g.ecx
  | .esp => g.esp
  | .ebp => g.ebp
  | .eip => g.eip

/-- The register file with register `r` replaced. -/
def Regs.set (g : Regs) (r : Reg) (v : Word) : Regs :=
  match r with
  | .eax => { g with eax := v }
  | .edx => { g with edx := v }
  | .ecx => { g with ecx := v }
  | .esp => { g with esp := v }
  | .ebp => { g with ebp := v }
  | .eip => { g with eip := v }

/-- `x[r]` (R9). No register is hardwired (R23). -/
def State.reg (s : State) (r : Reg) : Word := s.regs.get r

/-- `x[r] <- v` (R9). -/
def State.setReg (s : State) (r : Reg) (v : Word) : State := { s with regs := s.regs.set r v }

/-- `pc` is another name for `x[EIP]` (R9, R24). -/
def State.pc (s : State) : Word := s.reg .eip

/-- `pc <- t` (R9). -/
def State.setPc (s : State) (t : Word) : State := s.setReg .eip t

/-- The address one slot further: `wrap32(p + 4)` (R26, D14). -/
def nextSlot (p : Word) : Word := wrap32 (p.toInt + 4)

/-- `pc <- wrap32(pc + 4)`. -/
def State.advance (s : State) : State := s.setPc (nextSlot s.pc)

/-- `cmp <- v` (R27). -/
def State.setCmp (s : State) (v : Word) : State := { s with cmp := v }

/-! ### Bytes of memory

The operations below need no canonical form to read back what they wrote; they keep it. -/

/-- The byte at an address; an unlisted address reads 0 (log 3). -/
def readByte : Memory → Nat → Byte
  | [], _ => 0#8
  | c :: m, a => if c.1 = a then c.2 else readByte m a

/-- A cell put before the first cell with a higher address. -/
def insertCell (c : Host.Cell) : Memory → Memory
  | [] => [c]
  | d :: m => if c.1 < d.1 then c :: d :: m else d :: insertCell c m

/-- The memory with one byte replaced; a byte 0 is not listed. -/
def writeByte (m : Memory) (a : Nat) (b : Byte) : Memory :=
  let rest := m.filter (fun c => c.1 != a)
  if b = 0#8 then rest else insertCell (a, b) rest

/-- The canonical form: addresses strictly rising, no cell equal to what an unlisted address reads. -/
abbrev Memory.wf (m : Memory) : Prop :=
  m.Pairwise (fun c d => c.1 < d.1) ∧ ∀ c ∈ m, c.2 ≠ 0#8

/-- Every listed address lies in the data memory of `c` (R30). -/
abbrev Memory.within (c : Config) (m : Memory) : Prop := ∀ d ∈ m, d.1 < 4 * c.memWords

/-! ### Words of memory -/

/-- `M[k]` (R9): the bytes `4*k` to `4*k + 3`, the lowest byte first (R44, D13). -/
def readWord (m : Memory) (k : Nat) : Word :=
  readByte m (4 * k + 3) ++ readByte m (4 * k + 2) ++ readByte m (4 * k + 1) ++ readByte m (4 * k)

/-- `M[k] <- v` (R9). -/
def writeWord (m : Memory) (k : Nat) (v : Word) : Memory :=
  writeByte (writeByte (writeByte (writeByte m (4 * k) (v.extractLsb' 0 8))
    (4 * k + 1) (v.extractLsb' 8 8)) (4 * k + 2) (v.extractLsb' 16 8)) (4 * k + 3) (v.extractLsb' 24 8)

/-- `ValidData(A)` (R41): in range, and nothing else is checked. -/
def validData (c : Config) (a : Int) : Bool := decide (0 ≤ a ∧ a ≤ ((c.memWords : Int) - 1) * 4)

/-- `MemRead(A, 4)` (R42), used only where `validData` holds. A misaligned address reads the word it
lies in (R43). -/
def State.memRead (s : State) (a : Int) : Word := readWord s.mem (idx a).toNat

/-- `MemWrite(A, 4, v)` (R42), used only where `validData` holds. -/
def State.memWrite (s : State) (a : Int) (v : Word) : State :=
  { s with mem := writeWord s.mem (idx a).toNat v }

/-- The byte of data memory at a byte address, as a host dumps it (R44). -/
def State.byteAt (s : State) (a : Nat) : Byte := readByte s.mem a

/-! ### The instruction store and labels -/

/-- `ICOUNT`, the number of populated slots (R31, D3). -/
def State.icount (s : State) : Nat := s.store.length

/-- `I[i]`: a populated line, or the empty line (R31, D7). -/
def State.line (s : State) (i : Nat) : Line := s.store.getD i []

/-- `FetchOK(a)` (R151). -/
def fetchOk (c : Config) (a : Int) : Bool := decide (0 ≤ a ∧ idx a < (c.istoreSlots : Int))

/-- The line in slot `idx(pc)` (R24, R151). -/
def State.fetchLine (s : State) : Line := s.line (idx s.pc.toInt).toNat

/-- `ResolveLabel(tok)` (R96): the slot after the first line equal to the token. -/
def State.resolveLabel (s : State) (t : Token) : Option Int :=
  if t.head? = some s.cfg.labelSigil then
    (s.store.findIdx? (fun l => l == t)).map (fun i : Nat => ((i : Int) + 1) * 4)
  else none

/-- `ValidPC(a)` (R97): one past the last populated slot passes. -/
def State.validPc (s : State) (a : Int) : Bool := decide (0 ≤ idx a ∧ idx a ≤ (s.icount : Int))

/-! ### Results, the halted flag and the fetch fault -/

/-- The status output of a step (R12). -/
def State.setRes (s : State) (r : Res) : State := { s with res := some r }

/-- `halted <- true` (R153). -/
def State.halt (s : State) : State := { s with halted := true }

/-- `raise E` (R11): the executor stops and returns `E`; what it changed before stays. There is no trap
entry: nothing is saved and control does not move (R177). -/
def State.raise (s : State) (e : Res) : State × Res := (s, e)

/-- The one fault of the machine (R151, R174): the flag is set and nothing else changes. -/
def State.takeFetchFault (s : State) : State := { s with fault := .fetchFault }

/-- The numeric code of a result on the `res` output (R170, D31). -/
def Res.code : Res → Nat
  | .ok => 0
  | .instrError => 1
  | .memError => 2
  | .pcError => 3

/-- The outcome of an instruction after which the loop adds 4 to `pc`, whatever the result (R150). -/
def finishAdvance (p : State × Res) : Host.Outcome State Fault Refusal :=
  .next (p.1.advance.setRes p.2)

/-- The outcome of an instruction that writes `pc` itself (R150). -/
def finishInPlace (p : State × Res) : Host.Outcome State Fault Refusal :=
  .next (p.1.setRes p.2)

end Sys2Proof.Machine
end

