-- ==== Sys2Proof/Machine/Flags.lean ====
section
/-! DEFINITION. The sum of ADDL, the comparison result (R27, R115, R116) and the jump conditions (R130). -/

namespace Sys2Proof.Machine

/-- The sum of `ADDL`: `wrap32(a + b)` (R112, R116, D14). It writes no flag. -/
def addResult (a b : Word) : Word := wrap32 (a.toInt + b.toInt)

/-- The comparison result of `CMPL`: second value minus first, `wrap32(b - a)` (R115, R116, C3). -/
def compareResult (a b : Word) : Word := wrap32 (b.toInt - a.toInt)

/-- The five jumps (R130). -/
inductive Cond where
  | always
  | equal
  | notEqual
  | less
  | greater
  deriving DecidableEq, Repr

/-- `Cond(m, c)` (R130). -/
def condHolds (m : Cond) (c : Word) : Bool :=
  match m with
  | .always => true
  | .equal => decide (c.toInt = 0)
  | .notEqual => decide (c.toInt ≠ 0)
  | .less => decide (c.toInt < 0)
  | .greater => decide (0 < c.toInt)

end Sys2Proof.Machine
end

