-- ==== Sys2Proof/WellFormed.lean ====
section
/-! DEFINITION. Which instruction terms stand for a line that a loader may put in the store (R13, R61). -/

namespace Sys2Proof

/-- A character of a token: ASCII (R13, R74), no space (R13), no newline (R61). -/
def tokenChar (c : Char) : Bool :=
  decide (c.toNat < 128) && c != ' ' && c != '\n'

/-- A token (R13); the empty token stands for an absent field (R63). -/
def Token.wf (t : Token) : Bool := t.all tokenChar

/-- The two operand fields of a line: both tokens, and no second field without a first (R62, R63). -/
def Token.pairWf (t1 t2 : Token) : Bool :=
  Token.wf t1 && Token.wf t2 && (t1 != [] || t2 == [])

/-- The instruction is what some line of text decodes to. -/
def Instr.wf : Instr → Bool
  | .movl t1 t2 => Token.pairWf t1 t2
  | .addl t1 t2 => Token.pairWf t1 t2
  | .pushl t1 => Token.wf t1
  | .popl t1 => Token.wf t1
  | .cmpl t1 t2 => Token.pairWf t1 t2
  | .jmp t1 => Token.wf t1
  | .je t1 => Token.wf t1
  | .jne t1 => Token.wf t1
  | .jl t1 => Token.wf t1
  | .jg t1 => Token.wf t1
  | .call t1 => Token.wf t1
  | .ret => true
  | .endMarker => true
  | .skip => true

/-- No two spaces in a row and none at the end of the line. -/
def spacesSingle : Line → Bool
  | [] => true
  | [c] => c != ' '
  | c :: d :: rest => !(c == ' ' && d == ' ') && spacesSingle (d :: rest)

/-- What the loader guarantees of a line (R61): ASCII, no newline, no leading, trailing or double space. -/
def Line.loadable (l : Line) : Bool :=
  l.all (fun c => decide (c.toNat < 128) && c != '\n') && l.head? != some ' ' && spacesSingle l

end Sys2Proof
end

