-- ==== Sys2Proof/Decode.lean ====
section
/-! DEFINITION. From text to instructions and operands and back (R62 to R74, R79, R91), and the packed
80-bit word of R77. Every line decodes; a malformed operand token is rejected by name. -/

namespace Sys2Proof

/-! ### Lines and tokens -/

/-- The first piece of a text and what follows it: split at runs of the space character (R63). -/
def nextPiece (l : Line) : Token × Line :=
  ((l.dropWhile (· == ' ')).takeWhile (· != ' '), (l.dropWhile (· == ' ')).dropWhile (· != ' '))

/-- `Tokenize` (R63): mnemonic and two operand fields; absent fields are empty, later pieces ignored. -/
def tokenize (l : Line) : Token × Token × Token :=
  let p := nextPiece l
  let q := nextPiece p.2
  (p.1, q.1, (nextPiece q.2).1)

/-- The opcode map (R64) in its order, each spelling with the tokens its format keeps (R65). -/
def opcodeRows : List (Token × (Token → Token → Instr)) :=
  [ (['M', 'O', 'V', 'L'], fun t1 t2 => .movl t1 t2),
    (['A', 'D', 'D', 'L'], fun t1 t2 => .addl t1 t2),
    (['P', 'U', 'S', 'H', 'L'], fun t1 _ => .pushl t1),
    (['P', 'O', 'P', 'L'], fun t1 _ => .popl t1),
    (['C', 'M', 'P', 'L'], fun t1 t2 => .cmpl t1 t2),
    (['J', 'M', 'P'], fun t1 _ => .jmp t1),
    (['J', 'E'], fun t1 _ => .je t1),
    (['J', 'N', 'E'], fun t1 _ => .jne t1),
    (['J', 'L'], fun t1 _ => .jl t1),
    (['J', 'G'], fun t1 _ => .jg t1),
    (['C', 'A', 'L', 'L'], fun t1 _ => .call t1),
    (['R', 'E', 'T'], fun _ _ => .ret),
    (['E', 'N', 'D'], fun _ _ => .endMarker) ]

/-- The thirteen spellings of R64, in the order of their opcode numbers 1 to 13. -/
def mnemonics : List Token := opcodeRows.map Prod.fst

/-- The instruction of three tokens: the row of the first token, else a skip (R71, R152). -/
def instrOf (m t1 t2 : Token) : Instr :=
  match opcodeRows.lookup m with
  | some build => build t1 t2
  | none => .skip

/-- `DecodeLine` (R79). -/
def decodeLine (l : Line) : Instr :=
  let t := tokenize l
  instrOf t.1 t.2.1 t.2.2

/-! ### Operand tokens -/

/-- The spelling of a register operand (R21, R66). -/
def Reg.spelling : Reg → Token
  | .eax => ['%', 'E', 'A', 'X']
  | .edx => ['%', 'E', 'D', 'X']
  | .ecx => ['%', 'E', 'C', 'X']
  | .esp => ['%', 'E', 'S', 'P']
  | .ebp => ['%', 'E', 'B', 'P']
  | .eip => ['%', 'E', 'I', 'P']

/-- The six registers in the order of their numbers (R21, D36). -/
def Reg.all : List Reg := [.eax, .edx, .ecx, .esp, .ebp, .eip]

/-- The register a token spells, if it is one of the six `REGTOK` (R66). -/
def decodeReg (t : Token) : Option Reg := Reg.all.find? (fun r => r.spelling == t)

/-- The base 10 value of a string of digits (R67). -/
def digitsValue (ds : List Char) : Nat := ds.foldl (fun n c => 10 * n + (c.toNat - 48)) 0

/-- The sign of an `INT` and the rest of it (R67). -/
def splitSign : List Char → Bool × List Char
  | '-' :: ds => (true, ds)
  | '+' :: ds => (false, ds)
  | ds => (false, ds)

/-- The value of an `INT` (R67), if the text is one: optional sign, one or more digits, in int32. -/
def parseInt (cs : List Char) : Option Word :=
  let p := splitSign cs
  let z : Int := if p.1 then -(digitsValue p.2 : Int) else digitsValue p.2
  if p.2 ≠ [] ∧ p.2.all Char.isDigit ∧ -2147483648 ≤ z ∧ z ≤ 2147483647 then
    some (BitVec.ofInt 32 z)
  else none

/-- The optional offset before the parenthesis (R68): 0 when there is none. -/
def parseOffset (cs : List Char) : Option Word := if cs = [] then some 0#32 else parseInt cs

/-- A parenthesised name with its offset (R68, R91): a memory operand, or invalid where the name is no
register. -/
def decodeBase (inner : Token) (o : Word) : Decoded :=
  match decodeReg inner with
  | some r => .operand (.memory r o)
  | none => .operand .invalid

/-- Rules 3 and 4 of R91, for a token that is no register token and does not begin with `$`:
`before` is the text before the first `(`, `inner` the text up to the next `)`. -/
def decodeMemory (t : Token) : Decoded :=
  let before := t.takeWhile (· != '(')
  match t.dropWhile (· != '(') with
  | [] => if t.contains ')' then .malformed .parenthesisShape else .operand .invalid
  | _ :: rest =>
    let inner := rest.takeWhile (· != ')')
    if rest.dropWhile (· != ')') ≠ [')'] ∨ inner.contains '(' ∨ inner.contains ' ' then
      .malformed .parenthesisShape
    else match parseOffset before with
      | none => .malformed .parenthesisShape
      | some o => decodeBase inner o

/-- Rule 2 of R91, for the text after the `$`. -/
def decodeConstant (n : List Char) : Decoded :=
  match parseInt n with
  | some v => .operand (.constant v)
  | none => .malformed .constantShape

/-- `Decode(tok)` (R91), its four rules in their priority order. -/
def decodeOperand (t : Token) : Decoded :=
  match decodeReg t with
  | some r => .operand (.register r)
  | none => if t.head? = some '$' then decodeConstant t.tail else decodeMemory t

/-- The token decodes to an operand (it is not one of R73's malformed tokens). -/
def Token.admitted (t : Token) : Bool :=
  match decodeOperand t with
  | .operand _ => true
  | .malformed _ => false

/-- No token that an executor of this instruction decodes is malformed (R73, U1). Jumps and `CALL`
give their token to the label resolver, and no executor looks at any other token. -/
def Instr.admitted : Instr → Bool
  | .movl t1 t2 => Token.admitted t1 && Token.admitted t2
  | .addl t1 t2 => Token.admitted t1 && Token.admitted t2
  | .pushl t1 => Token.admitted t1
  | .popl t1 => Token.admitted t1
  | .cmpl t1 t2 => Token.admitted t1 && Token.admitted t2
  | .jmp _ => true
  | .je _ => true
  | .jne _ => true
  | .jl _ => true
  | .jg _ => true
  | .call _ => true
  | .ret => true
  | .endMarker => true
  | .skip => true

/-- A `LABELTOK` (R69): its first character is the label sigil. -/
def isLabelToken (sigil : Char) (t : Token) : Bool := t.head? == some sigil

/-- A label definition line (R70): one label token and nothing else. -/
def isLabelLine (sigil : Char) (l : Line) : Bool := isLabelToken sigil l && l.all (· != ' ')

/-! ### The encoder: a line for an instruction, a token for an operand -/

/-- A mnemonic and up to two operand tokens with single spaces between them (R62). -/
def joinTokens (m t1 t2 : Token) : Line :=
  m ++ (if t1 = [] then [] else ' ' :: t1) ++ (if t2 = [] then [] else ' ' :: t2)

/-- The line of an instruction (R62, R64). A skip is written as the empty line (R71). -/
def encodeLine : Instr → Line
  | .movl t1 t2 => joinTokens ['M', 'O', 'V', 'L'] t1 t2
  | .addl t1 t2 => joinTokens ['A', 'D', 'D', 'L'] t1 t2
  | .pushl t1 => joinTokens ['P', 'U', 'S', 'H', 'L'] t1 []
  | .popl t1 => joinTokens ['P', 'O', 'P', 'L'] t1 []
  | .cmpl t1 t2 => joinTokens ['C', 'M', 'P', 'L'] t1 t2
  | .jmp t1 => joinTokens ['J', 'M', 'P'] t1 []
  | .je t1 => joinTokens ['J', 'E'] t1 []
  | .jne t1 => joinTokens ['J', 'N', 'E'] t1 []
  | .jl t1 => joinTokens ['J', 'L'] t1 []
  | .jg t1 => joinTokens ['J', 'G'] t1 []
  | .call t1 => joinTokens ['C', 'A', 'L', 'L'] t1 []
  | .ret => ['R', 'E', 'T']
  | .endMarker => ['E', 'N', 'D']
  | .skip => []

/-- One decimal digit, for `n < 10`. -/
def digitChar (n : Nat) : Char := Char.ofNat (48 + n)

/-- The last `fuel` decimal digits of `n` without leading zeros, before `acc`. -/
def decimalAux : Nat → Nat → List Char → List Char
  | 0, _, acc => acc
  | fuel + 1, n, acc =>
    if n < 10 then digitChar n :: acc else decimalAux fuel (n / 10) (digitChar (n % 10) :: acc)

/-- The decimal digits of a number below 10^10 (every 32-bit number is). -/
def decimal (n : Nat) : List Char := decimalAux 10 n []

/-- An `INT` (R67) with the given value: `-` when negative, no leading zeros. -/
def intText (v : Word) : List Char :=
  if v.toInt < 0 then '-' :: decimal v.toInt.natAbs else decimal v.toInt.natAbs

/-- A token for an operand (R66 to R68). The invalid operand is written `()`, one of the spellings
that R99 lists as invalid. -/
def encodeOperand : Operand → Token
  | .register r => r.spelling
  | .memory r o => intText o ++ ['('] ++ r.spelling ++ [')']
  | .constant v => '$' :: intText v
  | .invalid => ['(', ')']

/-! ### The packed word (R77), the spec's own (D34) -/

/-- The seven fields of a packed word from bit 79 down, above the two zero bits 1:0 (R77). -/
def packFields (op : BitVec 4) (k1 : BitVec 2) (r1 : BitVec 3) (v1 : Word)
    (k2 : BitVec 2) (r2 : BitVec 3) (v2 : Word) : BitVec 80 :=
  op ++ k1 ++ r1 ++ v1 ++ k2 ++ r2 ++ v2 ++ 0#2

/-- Bits 79:76. -/
def packedOp (w : BitVec 80) : BitVec 4 := w.extractLsb' 76 4

/-- Bits 75:74. -/
def packedK1 (w : BitVec 80) : BitVec 2 := w.extractLsb' 74 2

/-- Bits 73:71. -/
def packedR1 (w : BitVec 80) : BitVec 3 := w.extractLsb' 71 3

/-- Bits 70:39. -/
def packedV1 (w : BitVec 80) : Word := w.extractLsb' 39 32

/-- Bits 38:37. -/
def packedK2 (w : BitVec 80) : BitVec 2 := w.extractLsb' 37 2

/-- Bits 36:34. -/
def packedR2 (w : BitVec 80) : BitVec 3 := w.extractLsb' 34 3

/-- Bits 33:2. -/
def packedV2 (w : BitVec 80) : Word := w.extractLsb' 2 32

/-- Bits 1:0. -/
def packedZero (w : BitVec 80) : BitVec 2 := w.extractLsb' 0 2

/-- The number of a register in the packed word (R21, D36). -/
def Reg.number : Reg → BitVec 3
  | .eax => 0#3
  | .edx => 1#3
  | .ecx => 2#3
  | .esp => 3#3
  | .ebp => 4#3
  | .eip => 5#3

/-- The register with a number; 6 and 7 are reserved (R77). -/
def Reg.ofNumber (n : BitVec 3) : Option Reg := Reg.all.find? (fun r => r.number == n)

/-- Kind, register number and value of a packed operand (R77). -/
def packOperand : Operand → BitVec 2 × BitVec 3 × Word
  | .invalid => (0#2, 0#3, 0#32)
  | .register r => (1#2, r.number, 0#32)
  | .constant v => (2#2, 0#3, v)
  | .memory r o => (3#2, r.number, o)

/-- The operand that a kind, a register number and a value pack (R77); nothing for a combination
that R77 does not produce (U17, log 23). -/
def unpackOperand (k : BitVec 2) (r : BitVec 3) (v : Word) : Option Operand :=
  if k = 0#2 then (if r = 0#3 ∧ v = 0#32 then some .invalid else none)
  else if k = 1#2 then (if v = 0#32 then (Reg.ofNumber r).map .register else none)
  else if k = 2#2 then (if r = 0#3 then some (.constant v) else none)
  else (Reg.ofNumber r).map (fun b => .memory b v)

/-- The packed word of a two-operand instruction (format F2), if both tokens are admitted. -/
def packF2 (op : BitVec 4) (t1 t2 : Token) : Option (BitVec 80) :=
  match decodeOperand t1, decodeOperand t2 with
  | .operand a, .operand b =>
    let p := packOperand a
    let q := packOperand b
    some (packFields op p.1 p.2.1 p.2.2 q.1 q.2.1 q.2.2)
  | _, _ => none

/-- The packed word of a one-operand instruction (format F1), if its token is admitted. -/
def packF1 (op : BitVec 4) (t1 : Token) : Option (BitVec 80) :=
  match decodeOperand t1 with
  | .operand a => let p := packOperand a; some (packFields op p.1 p.2.1 p.2.2 0#2 0#3 0#32)
  | .malformed _ => none

/-- The packed word of an instruction with a label reference (format FL). -/
def packFL (sigil : Char) (ids : Token → Word) (op : BitVec 4) (t1 : Token) : BitVec 80 :=
  if isLabelToken sigil t1 then packFields op 1#2 0#3 (ids t1) 0#2 0#3 0#32
  else packFields op 0#2 0#3 0#32 0#2 0#3 0#32

/-- The packed word of a line (R77), where `ids` is the loader's numbering of the label strings;
nothing for a line with a malformed token in a decoded position. -/
def packLine (sigil : Char) (ids : Token → Word) (l : Line) : Option (BitVec 80) :=
  match decodeLine l with
  | .movl t1 t2 => packF2 1#4 t1 t2
  | .addl t1 t2 => packF2 2#4 t1 t2
  | .pushl t1 => packF1 3#4 t1
  | .popl t1 => packF1 4#4 t1
  | .cmpl t1 t2 => packF2 5#4 t1 t2
  | .jmp t1 => some (packFL sigil ids 6#4 t1)
  | .je t1 => some (packFL sigil ids 7#4 t1)
  | .jne t1 => some (packFL sigil ids 8#4 t1)
  | .jl t1 => some (packFL sigil ids 9#4 t1)
  | .jg t1 => some (packFL sigil ids 10#4 t1)
  | .call t1 => some (packFL sigil ids 11#4 t1)
  | .ret => some (packFields 12#4 0#2 0#3 0#32 0#2 0#3 0#32)
  | .endMarker => some (packFields 13#4 0#2 0#3 0#32 0#2 0#3 0#32)
  | .skip =>
    if isLabelLine sigil l then some (packFields 0#4 1#2 0#3 (ids l) 0#2 0#3 0#32)
    else some (packFields 0#4 0#2 0#3 0#32 0#2 0#3 0#32)

/-- A label string for a label identifier: the sigil and the identifier in decimal. R77 leaves the
strings to the loader; these are this model's (DESIGN CHOICE, log 23). -/
def labelText (sigil : Char) (id : Word) : Token := sigil :: decimal id.toNat

/-- The numbering that goes with `labelText`: the number after the sigil. -/
def labelId (t : Token) : Word := BitVec.ofNat 32 (digitsValue t.tail)

/-- The label token of an FL word or of a label definition word: `k1` = 1 and an identifier, or
`k1` = 0 and nothing (R77). -/
def unpackLabel (sigil : Char) (w : BitVec 80) : Option Token :=
  if packedR1 w = 0#3 ∧ packedK2 w = 0#2 ∧ packedR2 w = 0#3 ∧ packedV2 w = 0#32 then
    if packedK1 w = 1#2 then some (labelText sigil (packedV1 w))
    else if packedK1 w = 0#2 ∧ packedV1 w = 0#32 then some []
    else none
  else none

/-- The spelling of an opcode number 1 to 13 (R64). -/
def mnemonicOf (op : BitVec 4) : Token := (mnemonics[op.toNat - 1]?).getD []

/-- A line for a packed word (R77): the fields as text. Words that are the packing of no line are
rejected (U17), but `op` 14 and 15 execute as a skip and are read as the empty line. -/
def unpackLine (sigil : Char) (w : BitVec 80) : Option Line :=
  if packedZero w ≠ 0#2 then none
  else if packedOp w = 1#4 ∨ packedOp w = 2#4 ∨ packedOp w = 5#4 then
    match unpackOperand (packedK1 w) (packedR1 w) (packedV1 w),
        unpackOperand (packedK2 w) (packedR2 w) (packedV2 w) with
    | some a, some b =>
      some (joinTokens (mnemonicOf (packedOp w)) (encodeOperand a) (encodeOperand b))
    | _, _ => none
  else if packedOp w = 3#4 ∨ packedOp w = 4#4 then
    if packedK2 w = 0#2 ∧ packedR2 w = 0#3 ∧ packedV2 w = 0#32 then
      (unpackOperand (packedK1 w) (packedR1 w) (packedV1 w)).map
        (fun a => joinTokens (mnemonicOf (packedOp w)) (encodeOperand a) [])
    else none
  else if packedOp w = 12#4 ∨ packedOp w = 13#4 then
    if packedK1 w = 0#2 ∧ unpackLabel sigil w = some [] then some (mnemonicOf (packedOp w))
    else none
  else if packedOp w = 0#4 then unpackLabel sigil w
  else if packedOp w = 14#4 ∨ packedOp w = 15#4 then (unpackLabel sigil w).map (fun _ => [])
  else (unpackLabel sigil w).map (fun t => joinTokens (mnemonicOf (packedOp w)) t [])

/-- The instruction of a packed word (R77): unpack it to a line, then decode the line. -/
def decodePacked (sigil : Char) (w : BitVec 80) : Option Instr := (unpackLine sigil w).map decodeLine

/-- The 80-bit packed word of a number whose bits above `nbits` are taken as 0. -/
def tableWord (nbits w : Nat) : Option (BitVec 80) :=
  if w % 2 ^ nbits < 2 ^ 80 then some (BitVec.ofNat 80 (w % 2 ^ nbits)) else none

/-- The instruction of a word numbered as spec/opcode_table.json numbers it, with the label sigil of
the reset configuration. -/
def decodeTableWord (nbits w : Nat) : Option Instr :=
  (tableWord nbits w).bind (decodePacked Config.tc.labelSigil)

end Sys2Proof
end

