-- ==== Sys2Proof/Machine/Operands.lean ====
section
/-! DEFINITION. Addresses, values and validity of operands (R93 to R95), and the kind checks of the
data instructions (R117). -/

namespace Sys2Proof.Machine

/-- The address of a memory operand (R45, R93): an unbounded integer, never wrapped (D16). -/
def State.ea (s : State) (r : Reg) (o : Word) : Int := (s.reg r).toInt + o.toInt

/-- `Value(op)` (R94); nothing for the invalid kind, or where the address is not valid. -/
def State.value (s : State) : Operand → Option Word
  | .register r => some (s.reg r)
  | .constant v => some v
  | .memory r o => if validData s.cfg (s.ea r o) then some (s.memRead (s.ea r o)) else none
  | .invalid => none

/-- The address check of a destination (R93): a memory operand needs a valid address. -/
def State.destOk (s : State) : Operand → Bool
  | .memory r o => validData s.cfg (s.ea r o)
  | .register _ => true
  | .constant _ => true
  | .invalid => true

/-- The write of a destination whose checks passed (R111). No executor writes to the other kinds. -/
def State.writeOperand (s : State) (d : Operand) (v : Word) : State :=
  match d with
  | .register r => s.setReg r v
  | .memory r o => s.memWrite (s.ea r o) v
  | .constant _ => s
  | .invalid => s

def isInvalid : Operand → Bool
  | .invalid => true
  | .register _ => false
  | .memory _ _ => false
  | .constant _ => false

def isConstant : Operand → Bool
  | .constant _ => true
  | .register _ => false
  | .memory _ _ => false
  | .invalid => false

def isMemory : Operand → Bool
  | .memory _ _ => true
  | .register _ => false
  | .constant _ => false
  | .invalid => false

/-- The kind checks of `MOVL` and `ADDL` (R111, R112). -/
def illegalMove (s d : Operand) : Bool :=
  isInvalid s || isInvalid d || isConstant d || (isMemory s && isMemory d)

/-- The kind checks of `CMPL` (R115). -/
def illegalCompare (a b : Operand) : Bool :=
  isInvalid a || isInvalid b || (isMemory a && isMemory b)

/-- The kind check of `PUSHL` (R113). -/
def illegalPush (s : Operand) : Bool := isInvalid s

/-- The kind check of `POPL` (R114). -/
def illegalPop (d : Operand) : Bool := isInvalid d || isConstant d

/-- Decode a token for an executor (R91); a malformed token is refused by name (R73, U1). -/
def withOperand (t : Token) (k : Operand → Host.Outcome State Fault Refusal) :
    Host.Outcome State Fault Refusal :=
  match decodeOperand t with
  | .operand o => k o
  | .malformed why => .refused (.malformedOperand why t)

end Sys2Proof.Machine
end

