-- ==== Sys2Proof/Machine/Data.lean ====
section
/-! DEFINITION. MOVL, ADDL, PUSHL, POPL, CMPL (R110 to R116). Each executor checks kinds, then addresses,
reads every value from the pre-state, and only then writes (R95, R98). -/

namespace Sys2Proof.Machine

/-! ### The executors, on decoded operands -/

/-- `Exec_MOVL` (R111). -/
def State.moveExec (st : State) (s d : Operand) : State × Res :=
  if illegalMove s d then st.raise .instrError
  else match st.value s with
    | some v => if st.destOk d then (st.writeOperand d v, .ok) else st.raise .memError
    | none => st.raise .memError

/-- `Exec_ADDL` (R112). -/
def State.addExec (st : State) (s d : Operand) : State × Res :=
  if illegalMove s d then st.raise .instrError
  else match st.value s, st.value d with
    | some b, some a => (st.writeOperand d (addResult a b), .ok)
    | _, _ => st.raise .memError

/-- `Exec_PUSHL` (R113). The stack address is an unbounded integer (D16); the pushed value is read
before `ESP` changes (D19). -/
def State.pushExec (st : State) (s : Operand) : State × Res :=
  if illegalPush s then st.raise .instrError
  else
    let n := (st.reg .esp).toInt - 4
    match st.value s with
    | some v => if validData st.cfg n then ((st.setReg .esp (wrap32 n)).memWrite n v, .ok)
      else st.raise .memError
    | none => st.raise .memError

/-- `Exec_POPL` (R114). The destination address uses the old `ESP` (D19); the 4 is added to `ESP` as
the write of the destination left it (D20). -/
def State.popExec (st : State) (d : Operand) : State × Res :=
  if illegalPop d then st.raise .instrError
  else
    let a := (st.reg .esp).toInt
    if validData st.cfg a && st.destOk d then
      let w := st.writeOperand d (st.memRead a)
      (w.setReg .esp (nextSlot (w.reg .esp)), .ok)
    else st.raise .memError

/-- `Exec_CMPL` (R115). -/
def State.compareExec (st : State) (a b : Operand) : State × Res :=
  if illegalCompare a b then st.raise .instrError
  else match st.value a, st.value b with
    | some x, some y => (st.setCmp (compareResult x y), .ok)
    | _, _ => st.raise .memError

/-! ### The meanings -/

/-- MOVL (R111), then the loop's `pc + 4` (R150). -/
def execMovl (t1 t2 : Token) (s : State) : Host.Outcome State Fault Refusal :=
  withOperand t1 fun a => withOperand t2 fun b => finishAdvance (s.moveExec a b)

/-- ADDL (R112), then the loop's `pc + 4` (R150). -/
def execAddl (t1 t2 : Token) (s : State) : Host.Outcome State Fault Refusal :=
  withOperand t1 fun a => withOperand t2 fun b => finishAdvance (s.addExec a b)

/-- PUSHL (R113), then the loop's `pc + 4` (R150). -/
def execPushl (t1 : Token) (s : State) : Host.Outcome State Fault Refusal :=
  withOperand t1 fun a => finishAdvance (s.pushExec a)

/-- POPL (R114), then the loop's `pc + 4` (R150). -/
def execPopl (t1 : Token) (s : State) : Host.Outcome State Fault Refusal :=
  withOperand t1 fun a => finishAdvance (s.popExec a)

/-- CMPL (R115), then the loop's `pc + 4` (R150). -/
def execCmpl (t1 t2 : Token) (s : State) : Host.Outcome State Fault Refusal :=
  withOperand t1 fun a => withOperand t2 fun b => finishAdvance (s.compareExec a b)

end Sys2Proof.Machine
end

