-- ==== Sys2Proof/Machine/Control.lean ====
section
/-! DEFINITION. JMP, JE, JNE, JL, JG, CALL, RET (R130 to R137). They write `pc` themselves and the loop
adds nothing. -/

namespace Sys2Proof.Machine

/-- `Exec_J` (R130): the label is resolved before the condition is looked at. -/
def State.jumpExec (st : State) (m : Cond) (t1 : Token) : State × Res :=
  match st.resolveLabel t1 with
  | none => st.advance.raise .pcError
  | some a =>
    if st.validPc a then
      if condHolds m st.cmp then (st.setPc (wrap32 a), .ok) else (st.advance, .ok)
    else st.advance.raise .pcError

/-- `Exec_CALL` (R136): on a bad label nothing changes (C1); the result of the push is returned but
not tested (D26). -/
def State.callExec (st : State) (t1 : Token) : State × Res :=
  match st.resolveLabel t1 with
  | none => st.raise .pcError
  | some a =>
    if st.validPc a then
      let p := st.advance.pushExec (.register .eip)
      (p.1.setPc (wrap32 a), p.2)
    else st.raise .pcError

/-- `Exec_RET` (R137): a bad popped address keeps the new `pc` and `ESP` (C6). -/
def State.retExec (st : State) : State × Res :=
  let p := st.popExec (.register .eip)
  if p.2 = .ok then
    if p.1.validPc p.1.pc.toInt then (p.1, .ok) else p.1.raise .pcError
  else p

/-- JMP (R131). -/
def execJmp (t1 : Token) (s : State) : Host.Outcome State Fault Refusal :=
  finishInPlace (s.jumpExec .always t1)

/-- JE (R132). -/
def execJe (t1 : Token) (s : State) : Host.Outcome State Fault Refusal :=
  finishInPlace (s.jumpExec .equal t1)

/-- JNE (R133). -/
def execJne (t1 : Token) (s : State) : Host.Outcome State Fault Refusal :=
  finishInPlace (s.jumpExec .notEqual t1)

/-- JL (R134). -/
def execJl (t1 : Token) (s : State) : Host.Outcome State Fault Refusal :=
  finishInPlace (s.jumpExec .less t1)

/-- JG (R135). -/
def execJg (t1 : Token) (s : State) : Host.Outcome State Fault Refusal :=
  finishInPlace (s.jumpExec .greater t1)

/-- CALL (R136). -/
def execCall (t1 : Token) (s : State) : Host.Outcome State Fault Refusal :=
  finishInPlace (s.callExec t1)

/-- RET (R137). -/
def execRet (s : State) : Host.Outcome State Fault Refusal := finishInPlace s.retExec

end Sys2Proof.Machine
end

