-- ==== Sys2Proof/Machine/System.lean ====
section
/-! DEFINITION. END and the skipped lines (R153, R154). -/

namespace Sys2Proof.Machine

/-- END (R153): `halted` is set and `pc` stays (D29); the result is `OK` (R150). -/
def execEnd (s : State) : Host.Outcome State Fault Refusal := finishInPlace (s.halt, .ok)

/-- A skipped line (R154): only `pc` moves; the result is `OK` (R150). -/
def execSkip (s : State) : Host.Outcome State Fault Refusal := finishAdvance (s, .ok)

end Sys2Proof.Machine
end

