-- ==== Sys2Proof/Machine/Dispatch.lean ====
section
/-! DEFINITION. The meaning of every instruction, by constructor (R150). -/

namespace Sys2Proof.Machine

/-- One arm for each constructor of Instr, in the order of spec/opcode_table.json. -/
def exec (i : Instr) (s : State) : Host.Outcome State Fault Refusal :=
  match i with
  | .movl t1 t2 => Sys2Proof.Machine.execMovl t1 t2 s
  | .addl t1 t2 => Sys2Proof.Machine.execAddl t1 t2 s
  | .pushl t1 => Sys2Proof.Machine.execPushl t1 s
  | .popl t1 => Sys2Proof.Machine.execPopl t1 s
  | .cmpl t1 t2 => Sys2Proof.Machine.execCmpl t1 t2 s
  | .jmp t1 => Sys2Proof.Machine.execJmp t1 s
  | .je t1 => Sys2Proof.Machine.execJe t1 s
  | .jne t1 => Sys2Proof.Machine.execJne t1 s
  | .jl t1 => Sys2Proof.Machine.execJl t1 s
  | .jg t1 => Sys2Proof.Machine.execJg t1 s
  | .call t1 => Sys2Proof.Machine.execCall t1 s
  | .ret => Sys2Proof.Machine.execRet s
  | .endMarker => Sys2Proof.Machine.execEnd s
  | .skip => Sys2Proof.Machine.execSkip s

end Sys2Proof.Machine
end

