-- ==== Sys2Proof/Machine/Launch.lean ====
section
/-! DEFINITION. What the loader and the host do between reset and the first step (R7, R61, R191), and
placing a line at the slot that the next step fetches. -/

namespace Sys2Proof.Machine

/-- Why a machine is not launched. Both are safe: nothing runs. -/
inductive LaunchRefusal where
  /-- Raised by the loader: the line of this slot, the lowest such, has a malformed token where an
  executor would decode it, so the program is outside the admitted subset (R73, U1, log 12). -/
  | malformedOperand (slot : Nat)
  /-- Raised by a preset of a word of data memory that does not exist (R9, log 22). -/
  | noSuchWord (k : Nat)
  deriving DecidableEq, Repr

/-- The loader fills the store (R61, R191): lines beyond ISTORE_SLOTS are dropped, and `ICOUNT` is the
number of lines stored. A program that is not admitted is refused before it runs (R73, D21, U1). -/
def State.loadProgram (s : State) (program : List Line) : Except LaunchRefusal State :=
  match (program.take s.cfg.istoreSlots).findIdx? (fun l => !(decodeLine l).admitted) with
  | some slot => .error (.malformedOperand slot)
  | none => .ok { s with store := program.take s.cfg.istoreSlots }

/-- One thing the host may set before the first step (R7, R191). -/
inductive Preset where
  | reg (r : Reg) (v : Word)
  | cmp (v : Word)
  | word (k : Nat) (v : Word)
  deriving DecidableEq, Repr

/-- The state with one launch value set; there is no `M[k]` for `k` at or above MEM_WORDS (R9). -/
def State.preset (s : State) : Preset → Except LaunchRefusal State
  | .reg r v => .ok (s.setReg r v)
  | .cmp v => .ok (s.setCmp v)
  | .word k v =>
    if k < s.cfg.memWords then .ok { s with mem := writeWord s.mem k v } else .error (.noSuchWord k)

/-- The launch values set one after another. -/
def State.presets (s : State) : List Preset → Except LaunchRefusal State
  | [] => .ok s
  | p :: ps =>
    match s.preset p with
    | .ok t => t.presets ps
    | .error e => .error e

/-- The launch of R191: reset, load, preset. -/
def launch (c : Config) (memInit : Memory) (program : List Line) (ps : List Preset) :
    Except LaunchRefusal State :=
  match (State.resetWith c memInit).loadProgram program with
  | .ok s => s.presets ps
  | .error e => .error e

/-- The state with `l` in slot `i`; slots between the last populated one and `i` get the empty line
they read as anyway (R31). -/
def State.placeLine (s : State) (i : Nat) (l : Line) : State :=
  { s with store := (s.store ++ List.replicate (i + 1 - s.store.length) []).set i l }

/-- The state with a line in the slot that the next step fetches. Where there is no line to place, or
the fetch would fail, nothing is placed. -/
def State.placeFetched (s : State) (line : Option Line) : State :=
  match line with
  | some l => if fetchOk s.cfg s.pc.toInt then s.placeLine (idx s.pc.toInt).toNat l else s
  | none => s

end Sys2Proof.Machine
end

