-- ==== Sys2Proof/Machine/Step.lean ====
section
/-! DEFINITION. One step of the machine (R150). -/

namespace Sys2Proof.Machine

/-- `Step()` (R150): a stopped machine takes no step; a fetch outside the store sets the fault flag;
otherwise the fetched line is decoded and executed. -/
def step (s : State) : Host.Outcome State Fault Refusal :=
  if s.halted then .fault .halted
  else match s.fault with
    | .fetchFault => .fault .fetchFault
    | .none =>
      if fetchOk s.cfg s.pc.toInt then exec (decodeLine s.fetchLine) s
      else .next s.takeFetchFault

/-- `s` with the instruction of a table word in the slot that `step` fetches next (log 24). -/
def State.withFetchWord (s : State) (nbits w : Nat) : State :=
  s.placeFetched ((tableWord nbits w).bind (unpackLine s.cfg.labelSigil))

end Sys2Proof.Machine
end

