-- ==== Sys2Proof/Machine/Packed.lean ====
section
/-! DEFINITION. The resolver on packed words (R78), beside the one on text (R96). -/

namespace Sys2Proof.Machine

/-- A packed slot matches iff it is a label definition word with the same identifier (R78). -/
def packedDefines (id : Word) (w : BitVec 80) : Bool :=
  packedOp w == 0#4 && packedK1 w == 1#2 && packedV1 w == id

/-- `ResolveLabel` in the packed form (R78), for the jump or call word `w` and a packed store. -/
def packedResolve (slots : List (BitVec 80)) (w : BitVec 80) : Option Int :=
  if packedK1 w = 1#2 then
    (slots.findIdx? (packedDefines (packedV1 w))).map (fun i : Nat => ((i : Int) + 1) * 4)
  else none

end Sys2Proof.Machine
end

