-- ==== Sys2Proof/Safety.lean ====
section
/-! DEFINITION. The terms that claims use: ends of a run, admitted programs, the invariant of the
machine, livelocks, and what a step leaves unchanged. -/

namespace Sys2Proof.Machine

/-! ### Runs (R156, R157, R201) -/

/-- The machine may take a step (R150). -/
def State.running (s : State) : Prop := s.halted = false ∧ s.fault = .none

/-- The end of a run (R201): the state is the program's result. -/
def State.ended (s : State) : Prop := s.halted = true

/-- A failed run (R157, R192): the state is no result. -/
def State.faulted (s : State) : Prop := s.fault = .fetchFault

/-- No line of the store has a malformed token where an executor decodes it (R73, U1). -/
def State.admittedStore (s : State) : Prop := ∀ l ∈ s.store, (decodeLine l).admitted = true

/-- The invariant of every machine that was launched (R5, R30, R31, R61): the parameters meet their
constraints, the store has room for its lines, memory is canonical and inside its bounds. -/
def State.Inv (s : State) : Prop :=
  s.cfg.wf ∧ s.store.length ≤ s.cfg.istoreSlots ∧ Memory.wf s.mem ∧ Memory.within s.cfg s.mem ∧
  (s.halted = true → s.fault = .none)

/-! ### What a step leaves unchanged -/

/-- The two states differ at most in the status output `res` (R12). -/
def sameButRes (s t : State) : Prop := t = { s with res := t.res }

/-- Parameters, instruction store and the two stop flags are the same. -/
def sameSetup (s t : State) : Prop :=
  t.cfg = s.cfg ∧ t.store = s.store ∧ t.halted = s.halted ∧ t.fault = s.fault

/-- Every register outside the list is the same. -/
def sameRegsBut (rs : List Reg) (s t : State) : Prop := ∀ r, r ∉ rs → t.reg r = s.reg r

/-- Every byte of data memory is the same. -/
def sameBytes (s t : State) : Prop := ∀ a, t.byteAt a = s.byteAt a

/-- Every byte of data memory outside the word that address `b` lies in is the same. -/
def sameBytesOutside (b : Int) (s t : State) : Prop :=
  ∀ a : Nat, idx (a : Int) ≠ idx b → t.byteAt a = s.byteAt a

/-- Only `pc` changed, to `p`, and the status output says `r`. -/
def onlyPc (p : Word) (r : Res) (s t : State) : Prop :=
  sameSetup s t ∧ sameRegsBut [.eip] s t ∧ t.cmp = s.cmp ∧ sameBytes s t ∧ t.pc = p ∧ t.res = some r

/-- A livelock (R194): a step leads back to the same state, but for the status output. -/
def State.livelock (s : State) : Prop := ∃ t, step s = .next t ∧ sameButRes s t

/-! ### The kind matrices of R117, cell by cell -/

/-- The cells marked ok of the matrix of MOVL and ADDL (R117). -/
def moveAllowed : Operand → Operand → Bool
  | .register _, .register _ => true
  | .register _, .memory _ _ => true
  | .memory _ _, .register _ => true
  | .constant _, .register _ => true
  | .constant _, .memory _ _ => true
  | _, _ => false

/-- The cells marked ok of the matrix of CMPL (R117). -/
def compareAllowed : Operand → Operand → Bool
  | .register _, .register _ => true
  | .register _, .memory _ _ => true
  | .register _, .constant _ => true
  | .memory _ _, .register _ => true
  | .memory _ _, .constant _ => true
  | .constant _, .register _ => true
  | .constant _, .memory _ _ => true
  | .constant _, .constant _ => true
  | _, _ => false

/-- The kinds PUSHL accepts (R117). -/
def pushAllowed : Operand → Bool
  | .register _ => true
  | .memory _ _ => true
  | .constant _ => true
  | .invalid => false

/-- The kinds POPL accepts (R117). -/
def popAllowed : Operand → Bool
  | .register _ => true
  | .memory _ _ => true
  | .constant _ => false
  | .invalid => false

/-- The five data instructions (R110). -/
def isData : Instr → Bool
  | .movl _ _ => true
  | .addl _ _ => true
  | .pushl _ => true
  | .popl _ => true
  | .cmpl _ _ => true
  | _ => false

end Sys2Proof.Machine
end

