-- ==== Sys2Proof/Certificates/Slice0/Obligations.lean ====
section
/-! DEFINITION. What is claimed of the machine, rule by rule. The docstring of a statement that rests on
a decision of the spec's own names it (D<n>) and the log entry. -/

open Sys2Proof Sys2Proof.Machine

/-! ### Text, tokens, operands -/

/-- Decoding the line written for a well-formed instruction gives the instruction back, for every
constructor and every operand token (R63, R64, R65, R79). The surplus-space cases of R63 are D12. -/
def Obligations.DecodeOfEncodeIsIdentity : Prop :=
  ∀ i : Instr, i.wf = true → decodeLine (encodeLine i) = i

/-- Decoding the token written for an operand gives the operand back: every register, every 32-bit
constant, every base with every 32-bit offset (R66, R67, R68, R91). -/
def Obligations.DecodeOfEncodedOperandIsIdentity : Prop :=
  ∀ o : Operand, decodeOperand (encodeOperand o) = .operand o

/-- Lines and tokens of the spec's own examples decode as V20, V21 and R99 say. -/
def Obligations.SpecLinesDecode : Prop :=
  decodeLine "MOVL %EDX %EAX".toList = .movl "%EDX".toList "%EAX".toList ∧
  decodeLine "PUSHL $1 $2 $3".toList = .pushl "$1".toList ∧
  decodeLine "RET 4".toList = .ret ∧
  decodeLine "END x".toList = .endMarker ∧
  decodeLine "JMP .e extra".toList = .jmp ".e".toList ∧
  decodeLine "movl $1 %EAX".toList = .skip ∧
  decodeLine "".toList = .skip ∧
  decodeOperand "$+3".toList = .operand (.constant 3#32) ∧
  decodeOperand "$007".toList = .operand (.constant 7#32) ∧
  decodeOperand "-2147483648(%EAX)".toList = .operand (.memory .eax 0x80000000#32) ∧
  decodeOperand "4()".toList = .operand .invalid ∧
  decodeOperand ".loop".toList = .operand .invalid ∧
  decodeOperand "$2147483648".toList = .malformed .constantShape ∧
  decodeOperand "4(%EAX".toList = .malformed .parenthesisShape

/-- The first three pieces of a line are its fields, however many spaces stand between them and
whatever follows the third (R63; D12, log 11). -/
def Obligations.TokenizeTakesFirstThreePieces : Prop :=
  ∀ (n0 n1 n2 : Nat) (a b c rest : List Char),
    a ≠ [] → b ≠ [] → c ≠ [] →
    (∀ x ∈ a, x ≠ ' ') → (∀ x ∈ b, x ≠ ' ') → (∀ x ∈ c, x ≠ ' ') →
    (rest = [] ∨ rest.head? = some ' ') →
    tokenize (List.replicate n0 ' ' ++ a ++ List.replicate (n1 + 1) ' ' ++ b ++
      List.replicate (n2 + 1) ' ' ++ c ++ rest) = (a, b, c)

/-- The first token alone picks the instruction, exactly, and the format the tokens that are kept
(R64, R65, R72, R152; spellings are D9, surplus tokens D12: log 10, log 11). -/
def Obligations.FirstTokenPicksInstruction : Prop :=
  ∀ (l : Line) (m t1 t2 : Token), tokenize l = (m, t1, t2) →
    (m = "MOVL".toList → decodeLine l = .movl t1 t2) ∧
    (m = "ADDL".toList → decodeLine l = .addl t1 t2) ∧
    (m = "PUSHL".toList → decodeLine l = .pushl t1) ∧
    (m = "POPL".toList → decodeLine l = .popl t1) ∧
    (m = "CMPL".toList → decodeLine l = .cmpl t1 t2) ∧
    (m = "JMP".toList → decodeLine l = .jmp t1) ∧
    (m = "JE".toList → decodeLine l = .je t1) ∧
    (m = "JNE".toList → decodeLine l = .jne t1) ∧
    (m = "JL".toList → decodeLine l = .jl t1) ∧
    (m = "JG".toList → decodeLine l = .jg t1) ∧
    (m = "CALL".toList → decodeLine l = .call t1) ∧
    (m = "RET".toList → decodeLine l = .ret) ∧
    (m = "END".toList → decodeLine l = .endMarker) ∧
    (decodeLine l = .skip ↔ m ∉ ["MOVL".toList, "ADDL".toList, "PUSHL".toList, "POPL".toList,
      "CMPL".toList, "JMP".toList, "JE".toList, "JNE".toList, "JL".toList, "JG".toList,
      "CALL".toList, "RET".toList, "END".toList])

/-- A constant token is `$`, an optional sign and digits with a value in int32; its operand is that
value (R67; `+` and leading zeros are D22, log 12). Every other token after `$` is malformed. -/
def Obligations.ConstantTokenValue : Prop :=
  (∀ (sign ds : List Char), (sign = [] ∨ sign = ['-'] ∨ sign = ['+']) → ds ≠ [] →
    (∀ c ∈ ds, c.isDigit = true) →
    let z : Int := if sign = ['-'] then -(digitsValue ds : Int) else digitsValue ds
    (-2147483648 ≤ z ∧ z ≤ 2147483647 →
      ∃ v : Word, decodeOperand ('$' :: (sign ++ ds)) = .operand (.constant v) ∧ v.toInt = z) ∧
    (¬ (-2147483648 ≤ z ∧ z ≤ 2147483647) →
      decodeOperand ('$' :: (sign ++ ds)) = .malformed .constantShape)) ∧
  (∀ n : List Char, (¬ ∃ sign ds, (sign = [] ∨ sign = ['-'] ∨ sign = ['+']) ∧ ds ≠ [] ∧
      (∀ c ∈ ds, c.isDigit = true) ∧ n = sign ++ ds) →
    decodeOperand ('$' :: n) = .malformed .constantShape)

/-- A token is a register operand exactly if it is that register's spelling (R66; D8, D11, log 10). -/
def Obligations.RegisterTokenExactly : Prop :=
  ∀ (t : Token) (r : Reg), decodeOperand t = .operand (.register r) ↔ t = r.spelling

/-- A token is a memory operand exactly if it is an optional integer literal, then one of the six
registers in parentheses, and nothing after: an unrecognised inner register is never a memory
operand (R68, R91; literals D22). -/
def Obligations.MemoryTokenExactly : Prop :=
  ∀ (t : Token) (r : Reg) (o : Word), decodeOperand t = .operand (.memory r o) ↔
    ∃ before, parseOffset before = some o ∧ t = before ++ ['('] ++ r.spelling ++ [')']

/-! ### The packed word -/

/-- Packing the line that a packed word unpacks to gives the word back: no field of R77 is dropped
(D34). The numbering of labels is this model's (log 23). -/
def Obligations.PackOfUnpackIsIdentity : Prop :=
  ∀ (w : BitVec 80) (l : Line), unpackLine '.' w = some l → (packedOp w).toNat < 14 →
    packLine '.' labelId l = some w

/-- The label resolver reads the same address from the packed store as from the text (R78), for every
numbering that gives the different label strings of the program different numbers (R77), where no
mnemonic begins with the label sigil (the sigil `.` of D10 begins none) and the store has no malformed
token (D34). -/
def Obligations.PackedResolverAgrees : Prop :=
  ∀ (s : State) (ids : Token → Word) (slots : List (BitVec 80)) (l : Line) (t : Token) (w : BitVec 80),
    (∀ m ∈ mnemonics, m.head? ≠ some s.cfg.labelSigil) →
    (∀ a ∈ t :: s.store, ∀ b ∈ t :: s.store, isLabelToken s.cfg.labelSigil a = true →
      isLabelToken s.cfg.labelSigil b = true → ids a = ids b → a = b) →
    s.store.map (packLine s.cfg.labelSigil ids) = slots.map some →
    (∃ j ∈ [Instr.jmp t, .je t, .jne t, .jl t, .jg t, .call t], decodeLine l = j) →
    packLine s.cfg.labelSigil ids l = some w →
    packedResolve slots w = s.resolveLabel t

/-- Reserved packed words (R77, U17): `op` 14 and 15 execute as a skip; register numbers 6 and 7 of a
register or memory operand, and bits 1:0 that are not zero, are rejected (D34, log 23). -/
def Obligations.PackedReservedWords : Prop :=
  ∀ (sigil : Char) (w : BitVec 80),
    (packedZero w ≠ 0#2 → decodePacked sigil w = none) ∧
    ((packedOp w).toNat ∈ [1, 2, 3, 4, 5] → (packedK1 w).toNat ∈ [1, 3] →
      6 ≤ (packedR1 w).toNat → decodePacked sigil w = none) ∧
    ((packedOp w).toNat ∈ [1, 2, 5] → (packedK2 w).toNat ∈ [1, 3] →
      6 ≤ (packedR2 w).toNat → decodePacked sigil w = none) ∧
    (14 ≤ (packedOp w).toNat → w.extractLsb' 0 76 = 0#76 → decodePacked sigil w = some .skip)

/-- Packed words that the spec writes out (V5, P1 to P5) and the lines they stand for. -/
def Obligations.SpecPackedWords : Prop :=
  packLine '.' (fun _ => 1#32) "MOVL $10 %EAX".toList = some 0x18000000052000000000#80 ∧
  packLine '.' (fun _ => 1#32) "JG .loop".toList = some 0xA4000000008000000000#80 ∧
  packLine '.' (fun _ => 1#32) "MOVL %EAX -4(%EBP)".toList = some 0x140000000073FFFFFFF0#80 ∧
  packLine '.' (fun _ => 1#32) ".loop".toList = some 0x04000000008000000000#80 ∧
  packLine '.' (fun _ => 1#32) "FOO %EAX".toList = some 0x00000000000000000000#80 ∧
  decodeTableWord 80 0x34800000000000000000 = some (.pushl "%EDX".toList) ∧
  decodeTableWord 80 0x44800000000000000000 = some (.popl "%EDX".toList) ∧
  decodeTableWord 80 0x2800000001A000000000 = some (.addl "$3".toList "%EAX".toList) ∧
  decodeTableWord 80 0x58000000002800000000 = some (.cmpl "$0".toList "%ECX".toList) ∧
  decodeTableWord 80 0xC0000000000000000000 = some .ret ∧
  decodeTableWord 80 0xD0000000000000000000 = some .endMarker

/-! ### The step -/

/-- A running machine whose `pc` lies in the store runs the decoded line of slot `floor(pc / 4)`, and
the step adds nothing around it (R150, R151; floor is D18, log 9). -/
def Obligations.StepRunsDecodedInstruction : Prop :=
  ∀ s : State, s.halted = false → s.fault = .none →
    0 ≤ s.pc.toInt → s.pc.toInt < 4 * (s.cfg.istoreSlots : Int) →
    step s = exec (decodeLine ((s.store[s.pc.toInt.toNat / 4]?).getD [])) s

/-- A fetch outside the store sets the fault flag and changes nothing else; from then on no step is
taken (R151, R174; D28, log 18). -/
def Obligations.FetchOutsideStoreFaults : Prop :=
  ∀ s : State, s.halted = false → s.fault = .none →
    (s.pc.toInt < 0 ∨ 4 * (s.cfg.istoreSlots : Int) ≤ s.pc.toInt) →
    ∃ t, step s = .next t ∧ t.fault = .fetchFault ∧ t = { s with fault := t.fault } ∧
      step t = .fault .fetchFault

/-- A machine that has halted or faulted takes no step (R28, R150, R153; D28, D29). That this is the
model's outcome `fault` is log 19. -/
def Obligations.StoppedMachineTakesNoStep : Prop :=
  ∀ s : State, (s.halted = true → step s = .fault .halted) ∧
    (s.halted = false → s.fault = .fetchFault → step s = .fault .fetchFault)

/-- A slot at or above ICOUNT is fetched like any other and skipped (R31, R151, R154; D7, log 5). -/
def Obligations.UnpopulatedSlotIsSkipped : Prop :=
  ∀ s : State, s.halted = false → s.fault = .none →
    4 * (s.icount : Int) ≤ s.pc.toInt → s.pc.toInt < 4 * (s.cfg.istoreSlots : Int) →
    ∃ t, step s = .next t ∧ onlyPc (nextSlot s.pc) .ok s t

/-- A line whose first token is none of the thirteen mnemonics moves `pc` to `wrap32(pc + 4)` and
changes nothing else, label definition lines and the empty line included (R154). -/
def Obligations.UnknownMnemonicIsSkipped : Prop :=
  (∀ s : State, ∃ t, exec .skip s = .next t ∧ onlyPc (wrap32 (s.pc.toInt + 4)) .ok s t) ∧
  (∀ s : State, s.halted = false → s.fault = .none →
    0 ≤ s.pc.toInt → s.pc.toInt < 4 * (s.cfg.istoreSlots : Int) →
    (tokenize s.fetchLine).1 ∉ mnemonics →
    ∃ t, step s = .next t ∧ onlyPc (wrap32 (s.pc.toInt + 4)) .ok s t)

/-- END sets `halted`; `pc`, registers, `cmp`, memory and the store stay (R153; that `pc` stays is D29,
log 19). -/
def Obligations.EndHalts : Prop :=
  ∀ s : State, ∃ t, exec .endMarker s = .next t ∧
    t.halted = true ∧ t.res = some .ok ∧ (∀ r, t.reg r = s.reg r) ∧ t.cmp = s.cmp ∧
    sameBytes s t ∧ t.cfg = s.cfg ∧ t.store = s.store ∧ t.fault = s.fault

/-- A run ends only by an END: no other line sets `halted`, and only a failed fetch sets the fault
flag (R28, R153, R174, R201; D28, D29). -/
def Obligations.OnlyEndHaltsAndOnlyFetchFaults : Prop :=
  ∀ s t : State, step s = .next t →
    (t.halted = true → decodeLine s.fetchLine = .endMarker ∧ fetchOk s.cfg s.pc.toInt = true) ∧
    (t.fault = .fetchFault → fetchOk s.cfg s.pc.toInt = false ∧ t.halted = false)

/-! ### Data instructions -/

/-- What an operand stands for when read (R94): a register's contents, a constant's value, the word at
a memory operand's validated address; an invalid address or the invalid kind gives nothing. The range is
R41's on the unbounded sum (R45, D16, log 8); a misaligned address reads its word (R42, R43, D17, D18,
log 9). -/
def Obligations.OperandValue : Prop :=
  ∀ s : State, (∀ r, s.value (.register r) = some (s.reg r)) ∧
    (∀ v, s.value (.constant v) = some v) ∧
    (∀ r o, s.value (.memory r o) =
      if 0 ≤ (s.reg r).toInt + o.toInt ∧ (s.reg r).toInt + o.toInt ≤ ((s.cfg.memWords : Int) - 1) * 4
      then some (readWord s.mem (((s.reg r).toInt + o.toInt).toNat / 4)) else none) ∧
    s.value .invalid = none

/-- MOVL (R111), every case: a kind error and an address error change nothing but `pc` and `res`; else
the value of the source goes to the destination register (`EIP` included, 4 added after) or to the one
memory word, and nothing else changes. The advance of `pc` is R150's, its wrap D14 (log 7). -/
def Obligations.MovlFollowsItsRule : Prop :=
  ∀ (s : State) (t1 t2 : Token) (a b : Operand),
    decodeOperand t1 = .operand a → decodeOperand t2 = .operand b →
    (moveAllowed a b = false →
      ∃ t, exec (.movl t1 t2) s = .next t ∧ onlyPc (nextSlot s.pc) .instrError s t) ∧
    (moveAllowed a b = true → (s.value a = none ∨ s.destOk b = false) →
      ∃ t, exec (.movl t1 t2) s = .next t ∧ onlyPc (nextSlot s.pc) .memError s t) ∧
    (∀ v, moveAllowed a b = true → s.value a = some v →
      (∀ rd, b = .register rd → ∃ t, exec (.movl t1 t2) s = .next t ∧ t.res = some .ok ∧
        sameSetup s t ∧ t.cmp = s.cmp ∧ sameBytes s t ∧
        (∀ r, r ≠ .eip → t.reg r = if r = rd then v else s.reg r) ∧
        t.pc = nextSlot (if rd = .eip then v else s.pc)) ∧
      (∀ rd o, b = .memory rd o → s.destOk b = true →
        ∃ t, exec (.movl t1 t2) s = .next t ∧ t.res = some .ok ∧
        sameSetup s t ∧ t.cmp = s.cmp ∧ sameRegsBut [.eip] s t ∧ t.pc = nextSlot s.pc ∧
        t.memRead (s.ea rd o) = v ∧ sameBytesOutside (s.ea rd o) s t))

/-- ADDL (R112), every case: errors as for MOVL; else the destination becomes the sum of both old
values, wrapped to 32 bits (the wrap is D14, log 7), and `cmp` is kept. -/
def Obligations.AddlFollowsItsRule : Prop :=
  ∀ (s : State) (t1 t2 : Token) (a b : Operand),
    decodeOperand t1 = .operand a → decodeOperand t2 = .operand b →
    (moveAllowed a b = false →
      ∃ t, exec (.addl t1 t2) s = .next t ∧ onlyPc (nextSlot s.pc) .instrError s t) ∧
    (moveAllowed a b = true → (s.value a = none ∨ s.value b = none) →
      ∃ t, exec (.addl t1 t2) s = .next t ∧ onlyPc (nextSlot s.pc) .memError s t) ∧
    (∀ v w, moveAllowed a b = true → s.value a = some v → s.value b = some w →
      (∀ rd, b = .register rd → ∃ t, exec (.addl t1 t2) s = .next t ∧ t.res = some .ok ∧
        sameSetup s t ∧ t.cmp = s.cmp ∧ sameBytes s t ∧
        (∀ r, r ≠ .eip → t.reg r = if r = rd then w + v else s.reg r) ∧
        t.pc = nextSlot (if rd = .eip then w + v else s.pc)) ∧
      (∀ rd o, b = .memory rd o → ∃ t, exec (.addl t1 t2) s = .next t ∧ t.res = some .ok ∧
        sameSetup s t ∧ t.cmp = s.cmp ∧ sameRegsBut [.eip] s t ∧ t.pc = nextSlot s.pc ∧
        t.memRead (s.ea rd o) = w + v ∧ sameBytesOutside (s.ea rd o) s t))

/-- PUSHL (R113), every case: the pushed value is the one before `ESP` moves (D19, log 13), the stack
address `ESP - 4` is an unbounded integer (D16, log 8), `ESP` ends 4 lower and the word there holds the
value. -/
def Obligations.PushlFollowsItsRule : Prop :=
  ∀ (s : State) (t1 : Token) (a : Operand), decodeOperand t1 = .operand a →
    let n : Int := (s.reg .esp).toInt - 4
    (pushAllowed a = false →
      ∃ t, exec (.pushl t1) s = .next t ∧ onlyPc (nextSlot s.pc) .instrError s t) ∧
    (pushAllowed a = true → (s.value a = none ∨ validData s.cfg n = false) →
      ∃ t, exec (.pushl t1) s = .next t ∧ onlyPc (nextSlot s.pc) .memError s t) ∧
    (∀ v, s.value a = some v → validData s.cfg n = true →
      ∃ t, exec (.pushl t1) s = .next t ∧ t.res = some .ok ∧ sameSetup s t ∧ t.cmp = s.cmp ∧
        sameRegsBut [.esp, .eip] s t ∧ (t.reg .esp).toInt = n ∧ t.pc = nextSlot s.pc ∧
        t.memRead n = v ∧ sameBytesOutside n s t)

/-- POPL (R114), every case: the word at `ESP` goes to the destination, whose address is computed with
the old `ESP` (D19), then 4 is added to `ESP` as it then is (D20, log 13), wrapped (D14, log 7). -/
def Obligations.PoplFollowsItsRule : Prop :=
  ∀ (s : State) (t1 : Token) (a : Operand), decodeOperand t1 = .operand a →
    let n : Int := (s.reg .esp).toInt
    (popAllowed a = false →
      ∃ t, exec (.popl t1) s = .next t ∧ onlyPc (nextSlot s.pc) .instrError s t) ∧
    (popAllowed a = true → (validData s.cfg n = false ∨ s.destOk a = false) →
      ∃ t, exec (.popl t1) s = .next t ∧ onlyPc (nextSlot s.pc) .memError s t) ∧
    (∀ rd, a = .register rd → validData s.cfg n = true →
      ∃ t, exec (.popl t1) s = .next t ∧ t.res = some .ok ∧ sameSetup s t ∧ t.cmp = s.cmp ∧
        sameBytes s t ∧
        (∀ r, r ≠ .esp → r ≠ .eip → t.reg r = if r = rd then s.memRead n else s.reg r) ∧
        t.reg .esp = nextSlot (if rd = .esp then s.memRead n else s.reg .esp) ∧
        t.pc = nextSlot (if rd = .eip then s.memRead n else s.pc)) ∧
    (∀ rd o, a = .memory rd o → validData s.cfg n = true → s.destOk a = true →
      ∃ t, exec (.popl t1) s = .next t ∧ t.res = some .ok ∧ sameSetup s t ∧ t.cmp = s.cmp ∧
        sameRegsBut [.esp, .eip] s t ∧ t.reg .esp = nextSlot (s.reg .esp) ∧ t.pc = nextSlot s.pc ∧
        t.memRead (s.ea rd o) = s.memRead n ∧ sameBytesOutside (s.ea rd o) s t)

/-- CMPL (R115), every case: `cmp` becomes the second value minus the first (C3, D35, log 21), 32 bits
wide and wrapped (D14, D15, log 7), and only `cmp` and `pc` change. -/
def Obligations.CmplFollowsItsRule : Prop :=
  ∀ (s : State) (t1 t2 : Token) (a b : Operand),
    decodeOperand t1 = .operand a → decodeOperand t2 = .operand b →
    (compareAllowed a b = false →
      ∃ t, exec (.cmpl t1 t2) s = .next t ∧ onlyPc (nextSlot s.pc) .instrError s t) ∧
    (compareAllowed a b = true → (s.value a = none ∨ s.value b = none) →
      ∃ t, exec (.cmpl t1 t2) s = .next t ∧ onlyPc (nextSlot s.pc) .memError s t) ∧
    (∀ v w, compareAllowed a b = true → s.value a = some v → s.value b = some w →
      ∃ t, exec (.cmpl t1 t2) s = .next t ∧ t.res = some .ok ∧ sameSetup s t ∧ t.cmp = w - v ∧
        sameRegsBut [.eip] s t ∧ t.pc = nextSlot s.pc ∧ sameBytes s t)

/-- The kind pairs each executor accepts (R117): for every pair of kinds the result of MOVL, ADDL, CMPL,
PUSHL and POPL is `InstrError` exactly in the cells marked IE, and no other instruction ever answers
`InstrError` (R171). That it wins over a bad address is D30 (R98, log 20). -/
def Obligations.KindMatricesDecideInstrError : Prop :=
  (∀ (s : State) (t1 t2 : Token) (a b : Operand),
    decodeOperand t1 = .operand a → decodeOperand t2 = .operand b →
    ∃ m d c, exec (.movl t1 t2) s = .next m ∧ exec (.addl t1 t2) s = .next d ∧
      exec (.cmpl t1 t2) s = .next c ∧
      (m.res = some .instrError ↔ moveAllowed a b = false) ∧
      (d.res = some .instrError ↔ moveAllowed a b = false) ∧
      (c.res = some .instrError ↔ compareAllowed a b = false)) ∧
  (∀ (s : State) (t1 : Token) (a : Operand), decodeOperand t1 = .operand a →
    ∃ p q, exec (.pushl t1) s = .next p ∧ exec (.popl t1) s = .next q ∧
      (p.res = some .instrError ↔ pushAllowed a = false) ∧
      (q.res = some .instrError ↔ popAllowed a = false)) ∧
  (∀ (s t : State) (i : Instr), exec i s = .next t → t.res = some .instrError → isData i = true)

/-- The common rule of the five data instructions (R110): an error means no change at all but the
loop's `pc + 4` (its wrap is D14, log 7); only CMPL changes `cmp`; `pc` moves otherwise only where
`EIP` is the named destination. -/
def Obligations.DataInstructionsShareTheirFrame : Prop :=
  ∀ (s t : State) (i : Instr), isData i = true → exec i s = .next t →
    (∀ e, t.res = some e → e ≠ .ok → onlyPc (nextSlot s.pc) e s t) ∧
    (t.cmp ≠ s.cmp → ∃ t1 t2, i = .cmpl t1 t2) ∧
    (t.pc ≠ nextSlot s.pc → ∃ t1, i = .movl t1 "%EIP".toList ∨ i = .addl t1 "%EIP".toList ∨
      i = .popl "%EIP".toList)

/-- The comparison result is written by CMPL and by nothing else (R27; its width is D15). -/
def Obligations.OnlyCmplWritesCmp : Prop :=
  ∀ (s t : State) (i : Instr), exec i s = .next t → t.cmp ≠ s.cmp → ∃ t1 t2, i = .cmpl t1 t2

/-- An address is valid exactly if `0 <= A <= (MEM_WORDS - 1) * 4`, misaligned or not, for memory
operands of every data instruction and for the stack address of PUSHL, POPL, CALL and RET (R41; the
sum is unbounded, D16, log 8; misaligned is D17, log 9; CALL passes the error of its push on, D26,
log 16; that RET answers `MemError` where its pop fails is the spec's choice D27, log 17). -/
def Obligations.MemErrorExactlyOutOfRange : Prop :=
  ∀ (s : State) (t1 t2 : Token) (v o : Word) (r rd : Reg),
    let bound : Int := ((s.cfg.memWords : Int) - 1) * 4
    let operand : Int := (s.reg r).toInt + o.toInt
    let inRange : Int → Prop := fun a => 0 ≤ a ∧ a ≤ bound
    ((decodeOperand t1 = .operand (.constant v) ∨ decodeOperand t1 = .operand (.register rd)) →
      decodeOperand t2 = .operand (.memory r o) →
      ∃ m d c, exec (.movl t1 t2) s = .next m ∧ exec (.addl t1 t2) s = .next d ∧
        exec (.cmpl t1 t2) s = .next c ∧ (m.res = some .memError ↔ ¬ inRange operand) ∧
        (d.res = some .memError ↔ ¬ inRange operand) ∧
        (c.res = some .memError ↔ ¬ inRange operand)) ∧
    (decodeOperand t1 = .operand (.memory r o) → decodeOperand t2 = .operand (.register rd) →
      ∃ m d c, exec (.movl t1 t2) s = .next m ∧ exec (.addl t1 t2) s = .next d ∧
        exec (.cmpl t1 t2) s = .next c ∧ (m.res = some .memError ↔ ¬ inRange operand) ∧
        (d.res = some .memError ↔ ¬ inRange operand) ∧
        (c.res = some .memError ↔ ¬ inRange operand)) ∧
    (decodeOperand t1 = .operand (.memory r o) → decodeOperand t2 = .operand (.constant v) →
      ∃ c, exec (.cmpl t1 t2) s = .next c ∧ (c.res = some .memError ↔ ¬ inRange operand)) ∧
    ((decodeOperand t1 = .operand (.constant v) ∨ decodeOperand t1 = .operand (.register rd)) →
      ∃ p, exec (.pushl t1) s = .next p ∧
      (p.res = some .memError ↔ ¬ inRange ((s.reg .esp).toInt - 4))) ∧
    (decodeOperand t1 = .operand (.memory r o) → ∃ p q, exec (.pushl t1) s = .next p ∧
      exec (.popl t1) s = .next q ∧
      (p.res = some .memError ↔ ¬ (inRange ((s.reg .esp).toInt - 4) ∧ inRange operand)) ∧
      (q.res = some .memError ↔ ¬ (inRange (s.reg .esp).toInt ∧ inRange operand))) ∧
    (decodeOperand t1 = .operand (.register rd) → ∃ q, exec (.popl t1) s = .next q ∧
      (q.res = some .memError ↔ ¬ inRange (s.reg .esp).toInt)) ∧
    (s.resolveLabel t1 ≠ none → ∃ c, exec (.call t1) s = .next c ∧
      (c.res = some .memError ↔ ¬ inRange ((s.reg .esp).toInt - 4))) ∧
    (∃ q, exec .ret s = .next q ∧ (q.res = some .memError ↔ ¬ inRange (s.reg .esp).toInt))

/-- A malformed token that an executor decodes is refused by name, and nothing else is ever refused
(R73, R91, U1; D21, log 12). -/
def Obligations.MalformedOperandIsRefused : Prop :=
  (∀ (s : State) (t1 t2 : Token) (why : Malformed), decodeOperand t1 = .malformed why →
    exec (.movl t1 t2) s = .refused (.malformedOperand why t1) ∧
    exec (.addl t1 t2) s = .refused (.malformedOperand why t1) ∧
    exec (.cmpl t1 t2) s = .refused (.malformedOperand why t1) ∧
    exec (.pushl t1) s = .refused (.malformedOperand why t1) ∧
    exec (.popl t1) s = .refused (.malformedOperand why t1)) ∧
  (∀ (s : State) (t1 t2 : Token) (a : Operand) (why : Malformed),
    decodeOperand t1 = .operand a → decodeOperand t2 = .malformed why →
    exec (.movl t1 t2) s = .refused (.malformedOperand why t2) ∧
    exec (.addl t1 t2) s = .refused (.malformedOperand why t2) ∧
    exec (.cmpl t1 t2) s = .refused (.malformedOperand why t2)) ∧
  (∀ (s : State) (i : Instr) (r : Refusal), exec i s = .refused r →
    i.admitted = false ∧ ∃ why t, r = .malformedOperand why t ∧ decodeOperand t = .malformed why)

/-- A program without malformed tokens is never refused, whatever state it runs in, and the only stops
are those of a stopped machine: no instruction of it faults (R73, R160, R177; D21, log 12). Where `pc`
lies outside the store the step is a next state because the fetch fault is one in this model (D28, and
the choice of log 18). -/
def Obligations.AdmittedProgramIsNeverRefused : Prop :=
  ∀ s : State, s.admittedStore → s.running → ∃ t, step s = .next t ∧ t.admittedStore

/-! ### Memory -/

/-- A word reads back as written, through any address inside it, and every other word is as before
(R42, R43). -/
def Obligations.WordReadsBack : Prop :=
  ∀ (s : State) (a b : Int) (v : Word), validData s.cfg a = true → validData s.cfg b = true →
    (s.memWrite a v).memRead b = if a / 4 = b / 4 then v else s.memRead b

/-- A misaligned valid address reaches the word it lies in (R43; C2, D17, log 9): storing a constant
through it is the same as storing it through the address rounded down. -/
def Obligations.MisalignedStoreReachesItsWord : Prop :=
  ∀ (s t u : State) (t1 t2 t2' : Token) (v o o' : Word) (r : Reg),
    decodeOperand t1 = .operand (.constant v) →
    decodeOperand t2 = .operand (.memory r o) → decodeOperand t2' = .operand (.memory r o') →
    validData s.cfg (s.ea r o) = true → s.ea r o' = s.ea r o - (s.ea r o) % 4 →
    exec (.movl t1 t2) s = .next t → exec (.movl t1 t2') s = .next u → t = u

/-- A host's byte dump of a word is little-endian (R44; D13, log 4: the model's choice, no program
can observe it). -/
def Obligations.DumpIsLittleEndian : Prop :=
  ∀ (s : State) (a i : Nat), i < 4 →
    s.byteAt (4 * a + i) = (s.memRead (4 * (a : Int))).extractLsb' (8 * i) 8

/-- No step changes a parameter or a slot, so a label resolves alike at every step of a run
(R52, R35). -/
def Obligations.StoreIsReadOnly : Prop :=
  ∀ s t : State, step s = .next t → t.cfg = s.cfg ∧ t.store = s.store ∧ t.icount = s.icount ∧
    ∀ tok, t.resolveLabel tok = s.resolveLabel tok

/-- The two address spaces are disjoint (R32): with any other instruction store the data instructions
do the same to registers, `cmp` and data memory. -/
def Obligations.DataInstructionsIgnoreTheStore : Prop :=
  ∀ (s t : State) (lines : List Line) (i : Instr), isData i = true → exec i s = .next t →
    exec i { s with store := lines } = .next { t with store := lines }

/-! ### Control transfer -/

/-- `ResolveLabel` (R96): the slot after the first of the lines equal to the token, scanning upward
(D23, log 14); without a matching line, or without the sigil in front, there is no address. -/
def Obligations.ResolveLabelFindsFirstMatch : Prop :=
  ∀ (s : State) (t : Token),
    (∀ a, s.resolveLabel t = some a ↔ t.head? = some s.cfg.labelSigil ∧
      ∃ i : Nat, s.store[i]? = some t ∧ (∀ j : Nat, j < i → s.store[j]? ≠ some t) ∧
        a = ((i : Int) + 1) * 4) ∧
    (s.resolveLabel t = none ↔ (t.head? ≠ some s.cfg.labelSigil ∨ t ∉ s.store))

/-- A resolved address is a multiple of 4 between 4 and ICOUNT * 4 and passes the range test, so the
range clause of the jumps and of CALL never fires (R97, R140; the bounds are D24, log 14). -/
def Obligations.ResolvedAddressIsInRange : Prop :=
  ∀ (s : State) (t : Token) (a : Int), s.resolveLabel t = some a →
    a % 4 = 0 ∧ 4 ≤ a ∧ a ≤ (s.icount : Int) * 4 ∧ s.validPc a = true

/-- The five jumps (R131 to R135): with a label that resolves, each goes to its address or one slot
further as its own test of `cmp` says; with one that does not, each goes one slot further with
`PCError`, whatever `cmp` is. Nothing but `pc` changes in any case (wrap D14, log 7; bounds D24,
log 14). -/
def Obligations.JumpsFollowTheirRules : Prop :=
  ∀ (s : State) (t1 : Token),
    (∀ a, s.resolveLabel t1 = some a →
      (∃ t, exec (.jmp t1) s = .next t ∧ onlyPc (wrap32 a) .ok s t) ∧
      (∃ t, exec (.je t1) s = .next t ∧
        onlyPc (if s.cmp = 0#32 then wrap32 a else nextSlot s.pc) .ok s t) ∧
      (∃ t, exec (.jne t1) s = .next t ∧
        onlyPc (if s.cmp ≠ 0#32 then wrap32 a else nextSlot s.pc) .ok s t) ∧
      (∃ t, exec (.jl t1) s = .next t ∧
        onlyPc (if s.cmp.toInt < 0 then wrap32 a else nextSlot s.pc) .ok s t) ∧
      (∃ t, exec (.jg t1) s = .next t ∧
        onlyPc (if s.cmp.toInt > 0 then wrap32 a else nextSlot s.pc) .ok s t)) ∧
    (s.resolveLabel t1 = none → ∀ i ∈ [Instr.jmp t1, .je t1, .jne t1, .jl t1, .jg t1],
      ∃ t, exec i s = .next t ∧ onlyPc (nextSlot s.pc) .pcError s t)

/-- CALL with a label that resolves and room on the stack (R136): the address of the slot after the
CALL is pushed, `ESP` ends 4 lower, `pc` is the label's address, nothing else changes (wrap D14,
bounds D16). -/
def Obligations.CallPushesReturnAddress : Prop :=
  ∀ (s : State) (t1 : Token) (a : Int),
    let n : Int := (s.reg .esp).toInt - 4
    s.resolveLabel t1 = some a → validData s.cfg n = true →
    ∃ t, exec (.call t1) s = .next t ∧ t.res = some .ok ∧ sameSetup s t ∧ t.cmp = s.cmp ∧
      sameRegsBut [.esp, .eip] s t ∧ (t.reg .esp).toInt = n ∧ t.pc = wrap32 a ∧
      t.memRead n = nextSlot s.pc ∧ sameBytesOutside n s t

/-- CALL where it fails (R136, R172, R173): with a label that does not resolve nothing changes, `pc`
included (C1, D25, log 15); with no room on the stack it still jumps, pushing nothing (D26, log 16). -/
def Obligations.CallFailures : Prop :=
  ∀ (s : State) (t1 : Token),
    (s.resolveLabel t1 = none →
      ∃ t, exec (.call t1) s = .next t ∧ t.res = some .pcError ∧ sameButRes s t) ∧
    (∀ a, s.resolveLabel t1 = some a → validData s.cfg ((s.reg .esp).toInt - 4) = false →
      ∃ t, exec (.call t1) s = .next t ∧ onlyPc (wrap32 a) .memError s t)

/-- RET (R137), every case: the word at `ESP` becomes `pc` and `ESP` moves up by 4, also where the word
is no valid address, which is then a `PCError` (C6; bounds D24, log 17); where `ESP` is no valid address
nothing changes (D27, log 17). -/
def Obligations.RetFollowsItsRule : Prop :=
  ∀ s : State,
    let n : Int := (s.reg .esp).toInt
    (validData s.cfg n = true →
      ∃ t, exec .ret s = .next t ∧ sameSetup s t ∧ t.cmp = s.cmp ∧ sameBytes s t ∧
        sameRegsBut [.esp, .eip] s t ∧ t.reg .esp = nextSlot (s.reg .esp) ∧ t.pc = s.memRead n ∧
        t.res = some (if 0 ≤ (s.memRead n).toInt ∧ (s.memRead n).toInt ≤ (s.icount : Int) * 4 + 3
          then .ok else .pcError)) ∧
    (validData s.cfg n = false →
      ∃ t, exec .ret s = .next t ∧ t.res = some .memError ∧ sameButRes s t)

/-! ### Over several steps -/

/-- Call, then return, comes back to the slot after the CALL with `ESP` where it was (R136, R137,
R138): the line at the label's address is a RET and the push had room. -/
def Obligations.CallThenReturnComesBack : Prop :=
  ∀ (s : State) (t1 : Token) (i : Nat), s.Inv → s.running →
    0 ≤ s.pc.toInt → s.pc.toInt < 4 * (s.cfg.istoreSlots : Int) →
    decodeLine s.fetchLine = .call t1 → s.resolveLabel t1 = some (4 * (i : Int)) →
    i < s.cfg.istoreSlots → decodeLine (s.line i) = .ret →
    validData s.cfg ((s.reg .esp).toInt - 4) = true →
    ∃ t, Host.Core.run Sys2Proof.core 2 s = .next t ∧ t.pc = nextSlot s.pc ∧ t.res = some .ok ∧
      (∀ r, r ≠ .eip → t.reg r = s.reg r) ∧ t.cmp = s.cmp ∧
      sameBytesOutside ((s.reg .esp).toInt - 4) s t

/-- Push, then pop, of the same register restores it and `ESP`, for every register but `ESP` (R113,
R114); with `EIP` both are moved on by the loop (R202). -/
def Obligations.PushThenPopRestores : Prop :=
  ∀ (s : State) (r : Reg), r ≠ .esp → validData s.cfg ((s.reg .esp).toInt - 4) = true →
    ∃ t u, exec (.pushl r.spelling) s = .next t ∧ exec (.popl r.spelling) t = .next u ∧
      u.res = some .ok ∧ (∀ q, q ≠ .eip → u.reg q = s.reg q) ∧
      u.pc = (if r = .eip then nextSlot s.pc else nextSlot (nextSlot s.pc)) ∧ u.cmp = s.cmp ∧
      sameBytesOutside ((s.reg .esp).toInt - 4) s u

/-- `EIP` as an operand (R24, R202): reading it gives the address of the reading instruction, writing
it is followed by the loop's 4, and adding -4 to it is a livelock (R194). -/
def Obligations.ProgramCounterAsOperand : Prop :=
  (∀ (s : State) (rd : Reg), rd ≠ .eip →
    ∃ t, exec (.movl "%EIP".toList rd.spelling) s = .next t ∧ t.reg rd = s.pc ∧
      t.pc = nextSlot s.pc) ∧
  (∀ (s : State) (v : Word) (t1 : Token), decodeOperand t1 = .operand (.constant v) →
    ∃ t, exec (.movl t1 "%EIP".toList) s = .next t ∧ t.pc = nextSlot v) ∧
  (∀ s : State, ∃ t, exec (.addl "$-4".toList "%EIP".toList) s = .next t ∧ sameButRes s t)

/-- A livelock lasts for ever: after any number of steps the machine is in the same state, still
running (R194, R156, R158). -/
def Obligations.LivelockLastsForever : Prop :=
  ∀ s : State, s.livelock → ∀ n : Nat, ∃ t, Host.Core.run Sys2Proof.core n s = .next t ∧
    sameButRes s t ∧ t.halted = false

/-- Running off the program (R195): from a slot at or above ICOUNT the machine skips every slot up to
the end of the store and then faults, with every register but `EIP`, `cmp` and memory as they were
(D7, D28, log 5, log 18). -/
def Obligations.RunningOffTheProgramFaults : Prop :=
  ∀ s : State, s.Inv → s.running →
    4 * (s.icount : Int) ≤ s.pc.toInt → s.pc.toInt < 4 * (s.cfg.istoreSlots : Int) →
    ∃ t, Host.Core.run Sys2Proof.core (s.cfg.istoreSlots - s.pc.toInt.toNat / 4 + 1) s = .next t ∧
      t.fault = .fetchFault ∧ t.halted = false ∧
      t.pc.toInt = 4 * (s.cfg.istoreSlots : Int) + s.pc.toInt % 4 ∧
      sameRegsBut [.eip] s t ∧ t.cmp = s.cmp ∧ sameBytes s t

/-- No step reads the status output `res` (R12): from states that differ only there, the outcomes
differ at most there. -/
def Obligations.ResultOutputIsNeverRead : Prop :=
  ∀ s s' : State, sameButRes s s' →
    (∀ t, step s = .next t → ∃ t', step s' = .next t' ∧ sameButRes t t') ∧
    (∀ f, step s = .fault f → step s' = .fault f) ∧
    (∀ r, step s = .refused r → step s' = .refused r)

/-! ### Reset, launch and the invariant -/

/-- Every step keeps the invariant: the parameters are legal, the store fits, data memory keeps its
canonical form and stays inside its bounds, and a machine never both halts and faults (R5, R30, R31). -/
def Obligations.StepKeepsTheInvariant : Prop :=
  ∀ s t : State, s.Inv → step s = .next t → t.Inv

/-- The reset state meets the invariant. It is the test configuration's (log 1, log 2, log 3). -/
def Obligations.ResetMeetsTheInvariant : Prop := State.reset.Inv

/-- Every launch of every machine (R191) meets the invariant: any legal parameters, any launch memory,
any program and presets it accepts. The bounds on the parameters are D37. -/
def Obligations.LaunchMeetsTheInvariant : Prop :=
  ∀ (c : Config) (memInit : Memory) (program : List Line) (ps : List Preset) (s : State),
    c.wf → Memory.wf memInit → Memory.within c memInit → launch c memInit program ps = .ok s →
    s.Inv

/-- The reset values (R34) for every value of the parameters: general registers 0, `ESP` and `EBP` at
STACK_INIT (one value for both is D4, log 2), `EIP` 0, `cmp` 0 (D6, log 6), memory MEM_INIT (D5), not
halted (D29), no fault (D28). `res` is none (R28); that it is kept in State, none before the first step,
is the choice of log 20. The loader changes the store alone, and after it ICOUNT is the number of lines
it stored (D3, D7, log 5). -/
def Obligations.ResetValues : Prop :=
  ∀ (c : Config) (m : Memory),
    let s := State.resetWith c m
    s.reg .eax = 0#32 ∧ s.reg .edx = 0#32 ∧ s.reg .ecx = 0#32 ∧ s.reg .esp = c.stackInit ∧
    s.reg .ebp = c.stackInit ∧ s.pc = 0#32 ∧ s.cmp = 0#32 ∧ (∀ a, s.byteAt a = readByte m a) ∧
    s.halted = false ∧ s.fault = .none ∧ s.res = none ∧
    (∀ (program : List Line) (t : State), s.loadProgram program = .ok t →
      t = { s with store := t.store } ∧ t.icount = min program.length c.istoreSlots ∧
      (∀ i, i < c.istoreSlots → t.line i = program.getD i []))

/-- The sums and differences of R116's table (the wrap is D14, D15, log 7). -/
def Obligations.ArithmeticTable : Prop :=
  addResult 2147483647#32 1#32 = -2147483648#32 ∧
  addResult (-2147483648#32) (-1#32) = 2147483647#32 ∧
  addResult (-2147483648#32) (-2147483648#32) = 0#32 ∧
  addResult (-5#32) 5#32 = 0#32 ∧
  addResult 0#32 0#32 = 0#32 ∧
  compareResult 1#32 (-2147483648#32) = 2147483647#32 ∧
  compareResult (-1#32) 2147483647#32 = -2147483648#32 ∧
  compareResult (-2147483648#32) 0#32 = -2147483648#32 ∧
  compareResult 7#32 7#32 = 0#32 ∧
  compareResult 5#32 3#32 = -2#32

/-! ### The admitted programs -/

/-- A program with a malformed token where an executor would decode it is refused before it runs, as a
whole, and the refusal names the lowest such slot (R73, U1; D21, log 12); every other program is loaded
as it stands, unless a preset names a word that does not exist (log 22). -/
def Obligations.LaunchRefusesMalformedPrograms : Prop :=
  ∀ (c : Config) (memInit : Memory) (program : List Line) (ps : List Preset),
    (∀ (i : Nat) (l : Line), i < c.istoreSlots → program[i]? = some l →
      (decodeLine l).admitted = false →
      (∀ (j : Nat) (k : Line), j < i → program[j]? = some k → (decodeLine k).admitted = true) →
      launch c memInit program ps = .error (.malformedOperand i)) ∧
    ((∀ l ∈ program.take c.istoreSlots, (decodeLine l).admitted = true) →
      (∀ k v, Preset.word k v ∈ ps → k < c.memWords) →
      ∃ s, launch c memInit program ps = .ok s ∧ s.store = program.take c.istoreSlots) ∧
    ((∀ l ∈ program.take c.istoreSlots, (decodeLine l).admitted = true) →
      (∃ k v, Preset.word k v ∈ ps ∧ c.memWords ≤ k) →
      ∃ k, c.memWords ≤ k ∧ launch c memInit program ps = .error (.noSuchWord k))

/-- A machine that was launched never meets a malformed token: no run from its launch is ever refused
(R73, U1; D21, log 12). -/
def Obligations.LaunchedMachineIsNeverRefused : Prop :=
  ∀ (c : Config) (memInit : Memory) (program : List Line) (ps : List Preset) (s : State),
    launch c memInit program ps = .ok s →
    s.admittedStore ∧ ∀ (n : Nat) (r : Refusal), Host.Core.run Sys2Proof.core n s ≠ .refused r
end

