-- ==== Sys2Proof/Laws/Memory.lean ====
section
/-! SUPPORT. Reading after writing, and the canonical form of memory: every memory operation keeps it. -/

namespace Sys2Proof.Machine

/-! ### One byte -/

theorem readByte_insertCell (c : Host.Cell) (m : Memory) (h : ∀ d ∈ m, d.1 ≠ c.1) (a : Nat) :
    readByte (insertCell c m) a = if c.1 = a then c.2 else readByte m a := by
  induction m with
  | nil => rfl
  | cons d m ih =>
    have hd := h d (by simp)
    have ih := ih (fun e he => h e (by simp [he]))
    simp only [insertCell]
    split
    · rfl
    · simp only [readByte, ih]
      grind

theorem readByte_filter_ne (m : Memory) (a b : Nat) :
    readByte (m.filter (fun c => c.1 != a)) b = if b = a then 0#8 else readByte m b := by
  induction m with
  | nil => simp [readByte]
  | cons d m ih =>
    simp only [List.filter_cons]
    split <;> simp_all [readByte] <;> grind

/-- A byte reads back, and every other address reads as before (R42, R46). -/
@[simp] theorem readByte_writeByte (m : Memory) (a : Nat) (b : Byte) (a' : Nat) :
    readByte (writeByte m a b) a' = if a' = a then b else readByte m a' := by
  unfold writeByte
  simp only
  split
  · simp_all [readByte_filter_ne]
  · rw [readByte_insertCell _ _ (by simp), readByte_filter_ne]
    grind

/-! ### The canonical form -/

theorem mem_insertCell (c d : Host.Cell) (m : Memory) : d ∈ insertCell c m ↔ d = c ∨ d ∈ m := by
  induction m with
  | nil => simp [insertCell]
  | cons e m ih => simp only [insertCell]; split <;> simp_all; tauto

theorem pairwise_insertCell (c : Host.Cell) (m : Memory) (h : ∀ d ∈ m, d.1 ≠ c.1)
    (hm : m.Pairwise (fun c d => c.1 < d.1)) :
    (insertCell c m).Pairwise (fun c d => c.1 < d.1) := by
  induction m with
  | nil => simp [insertCell]
  | cons e m ih =>
    have he := h e (by simp)
    rw [List.pairwise_cons] at hm
    simp only [insertCell]
    split
    · rename_i hlt
      simp only [List.pairwise_cons, List.mem_cons]
      exact ⟨fun d hd => hd.elim (fun h => h ▸ hlt) (fun h => hlt.trans (hm.1 d h)), hm⟩
    · simp only [List.pairwise_cons, mem_insertCell]
      refine ⟨fun d hd => hd.elim (fun h => ?_) (hm.1 d), ih (fun d hd => h d (by simp [hd])) hm.2⟩
      subst h
      omega

theorem writeByte_wf {m : Memory} (h : Memory.wf m) (a : Nat) (b : Byte) :
    Memory.wf (writeByte m a b) := by
  have hf : Memory.wf (m.filter (fun c => c.1 != a)) :=
    ⟨h.1.filter _, fun c hc => h.2 c (List.mem_of_mem_filter hc)⟩
  unfold writeByte
  simp only
  split
  · exact hf
  · refine ⟨pairwise_insertCell _ _ (by simp) hf.1, fun c hc => ?_⟩
    rcases (mem_insertCell _ _ _).1 hc with rfl | hc
    · assumption
    · exact hf.2 c hc

theorem writeByte_within {c : Config} {m : Memory} (h : Memory.within c m) {a : Nat}
    (ha : a < 4 * c.memWords) (b : Byte) : Memory.within c (writeByte m a b) := by
  intro d hd
  unfold writeByte at hd
  simp only at hd
  split at hd
  · exact h d (List.mem_of_mem_filter hd)
  · rcases (mem_insertCell _ _ _).1 hd with rfl | hd
    · exact ha
    · exact h d (List.mem_of_mem_filter hd)

/-! ### One word -/

/-- Writing word `k` changes the four bytes of word `k` and no other byte. -/
theorem readByte_writeWord_ne (m : Memory) (k : Nat) (v : Word) (a : Nat) (h : a / 4 ≠ k) :
    readByte (writeWord m k v) a = readByte m a := by
  simp only [writeWord, readByte_writeByte]
  grind

theorem readByte_writeWord_eq (m : Memory) (k : Nat) (v : Word) (i : Nat) (h : i < 4) :
    readByte (writeWord m k v) (4 * k + i) = v.extractLsb' (8 * i) 8 := by
  simp only [writeWord, readByte_writeByte]
  have : i = 0 ∨ i = 1 ∨ i = 2 ∨ i = 3 := by omega
  rcases this with rfl | rfl | rfl | rfl <;> simp

theorem word_of_bytes (v : Word) :
    v.extractLsb' 24 8 ++ v.extractLsb' 16 8 ++ v.extractLsb' 8 8 ++ v.extractLsb' 0 8 = v := by
  apply BitVec.eq_of_toNat_eq
  simp only [BitVec.toNat_append, BitVec.extractLsb'_toNat, Nat.shiftRight_eq_div_pow]
  rw [← Nat.shiftLeft_add_eq_or_of_lt (by omega), ← Nat.shiftLeft_add_eq_or_of_lt (by omega),
    ← Nat.shiftLeft_add_eq_or_of_lt (by omega)]
  simp only [Nat.shiftLeft_eq]
  have := v.isLt
  omega

/-- A word reads back, and every other word reads as before (R42). -/
@[simp] theorem readWord_writeWord (m : Memory) (k : Nat) (v : Word) (k' : Nat) :
    readWord (writeWord m k v) k' = if k' = k then v else readWord m k' := by
  split
  · subst k'
    have h0 := readByte_writeWord_eq m k v 0 (by omega)
    have h1 := readByte_writeWord_eq m k v 1 (by omega)
    have h2 := readByte_writeWord_eq m k v 2 (by omega)
    have h3 := readByte_writeWord_eq m k v 3 (by omega)
    simp only [Nat.add_zero] at h0
    rw [readWord, h0, h1, h2, h3]
    exact word_of_bytes v
  · unfold readWord
    rw [readByte_writeWord_ne _ _ _ _ (by omega), readByte_writeWord_ne _ _ _ _ (by omega),
      readByte_writeWord_ne _ _ _ _ (by omega), readByte_writeWord_ne _ _ _ _ (by omega)]

theorem writeWord_wf {m : Memory} (h : Memory.wf m) (k : Nat) (v : Word) :
    Memory.wf (writeWord m k v) :=
  writeByte_wf (writeByte_wf (writeByte_wf (writeByte_wf h _ _) _ _) _ _) _ _

theorem writeWord_within {c : Config} {m : Memory} (h : Memory.within c m) {k : Nat}
    (hk : k < c.memWords) (v : Word) : Memory.within c (writeWord m k v) :=
  writeByte_within (writeByte_within (writeByte_within (writeByte_within h (by omega) _)
    (by omega) _) (by omega) _) (by omega) _

/-- The memory of the reset state is canonical. -/
theorem reset_mem_wf : Memory.wf State.reset.mem := by
  simp [Memory.wf, State.reset, State.resetWith]

/-! ### Addresses -/

/-- A valid address lies in a word that exists (R42). -/
theorem validData_idx {c : Config} {a : Int} (h : validData c a = true) :
    0 ≤ idx a ∧ (idx a).toNat < c.memWords := by
  simp only [validData, decide_eq_true_eq, idx] at *
  omega

theorem State.memRead_memWrite (s : State) (a b : Int) (v : Word) :
    (s.memWrite a v).memRead b = if (idx b).toNat = (idx a).toNat then v else s.memRead b := by
  simp [State.memRead, State.memWrite]

theorem State.byteAt_memWrite_ne (s : State) (a : Int) (ha : 0 ≤ idx a) (v : Word) (b : Nat)
    (h : idx (b : Int) ≠ idx a) : (s.memWrite a v).byteAt b = s.byteAt b := by
  refine readByte_writeWord_ne _ _ _ _ (fun hk => h ?_)
  simp only [idx] at *
  omega

end Sys2Proof.Machine
end

