-- ==== Sys2Proof/Laws/State.lean ====
section
/-! SUPPORT. One lemma for each field and each update of State, true by rfl, and reading a register
after writing one. -/

namespace Sys2Proof.Machine

@[simp] theorem State.setReg_cfg (s : State) (r : Reg) (v : Word) : (s.setReg r v).cfg = s.cfg := (rfl)
@[simp] theorem State.setReg_cmp (s : State) (r : Reg) (v : Word) : (s.setReg r v).cmp = s.cmp := (rfl)
@[simp] theorem State.setReg_mem (s : State) (r : Reg) (v : Word) : (s.setReg r v).mem = s.mem := (rfl)
@[simp] theorem State.setReg_store (s : State) (r : Reg) (v : Word) : (s.setReg r v).store = s.store := (rfl)
@[simp] theorem State.setReg_halted (s : State) (r : Reg) (v : Word) : (s.setReg r v).halted = s.halted := (rfl)
@[simp] theorem State.setReg_fault (s : State) (r : Reg) (v : Word) : (s.setReg r v).fault = s.fault := (rfl)
@[simp] theorem State.setReg_res (s : State) (r : Reg) (v : Word) : (s.setReg r v).res = s.res := (rfl)

@[simp] theorem State.setPc_cfg (s : State) (t : Word) : (s.setPc t).cfg = s.cfg := (rfl)
@[simp] theorem State.setPc_cmp (s : State) (t : Word) : (s.setPc t).cmp = s.cmp := (rfl)
@[simp] theorem State.setPc_mem (s : State) (t : Word) : (s.setPc t).mem = s.mem := (rfl)
@[simp] theorem State.setPc_store (s : State) (t : Word) : (s.setPc t).store = s.store := (rfl)
@[simp] theorem State.setPc_halted (s : State) (t : Word) : (s.setPc t).halted = s.halted := (rfl)
@[simp] theorem State.setPc_fault (s : State) (t : Word) : (s.setPc t).fault = s.fault := (rfl)
@[simp] theorem State.setPc_res (s : State) (t : Word) : (s.setPc t).res = s.res := (rfl)

@[simp] theorem State.advance_cfg (s : State) : s.advance.cfg = s.cfg := (rfl)
@[simp] theorem State.advance_cmp (s : State) : s.advance.cmp = s.cmp := (rfl)
@[simp] theorem State.advance_mem (s : State) : s.advance.mem = s.mem := (rfl)
@[simp] theorem State.advance_store (s : State) : s.advance.store = s.store := (rfl)
@[simp] theorem State.advance_halted (s : State) : s.advance.halted = s.halted := (rfl)
@[simp] theorem State.advance_fault (s : State) : s.advance.fault = s.fault := (rfl)
@[simp] theorem State.advance_res (s : State) : s.advance.res = s.res := (rfl)

@[simp] theorem State.setCmp_cfg (s : State) (v : Word) : (s.setCmp v).cfg = s.cfg := (rfl)
@[simp] theorem State.setCmp_regs (s : State) (v : Word) : (s.setCmp v).regs = s.regs := (rfl)
@[simp] theorem State.setCmp_mem (s : State) (v : Word) : (s.setCmp v).mem = s.mem := (rfl)
@[simp] theorem State.setCmp_store (s : State) (v : Word) : (s.setCmp v).store = s.store := (rfl)
@[simp] theorem State.setCmp_halted (s : State) (v : Word) : (s.setCmp v).halted = s.halted := (rfl)
@[simp] theorem State.setCmp_fault (s : State) (v : Word) : (s.setCmp v).fault = s.fault := (rfl)
@[simp] theorem State.setCmp_res (s : State) (v : Word) : (s.setCmp v).res = s.res := (rfl)

@[simp] theorem State.memWrite_cfg (s : State) (a : Int) (v : Word) : (s.memWrite a v).cfg = s.cfg := (rfl)
@[simp] theorem State.memWrite_regs (s : State) (a : Int) (v : Word) : (s.memWrite a v).regs = s.regs := (rfl)
@[simp] theorem State.memWrite_cmp (s : State) (a : Int) (v : Word) : (s.memWrite a v).cmp = s.cmp := (rfl)
@[simp] theorem State.memWrite_store (s : State) (a : Int) (v : Word) : (s.memWrite a v).store = s.store := (rfl)
@[simp] theorem State.memWrite_halted (s : State) (a : Int) (v : Word) : (s.memWrite a v).halted = s.halted := (rfl)
@[simp] theorem State.memWrite_fault (s : State) (a : Int) (v : Word) : (s.memWrite a v).fault = s.fault := (rfl)
@[simp] theorem State.memWrite_res (s : State) (a : Int) (v : Word) : (s.memWrite a v).res = s.res := (rfl)

@[simp] theorem State.setRes_cfg (s : State) (r : Res) : (s.setRes r).cfg = s.cfg := (rfl)
@[simp] theorem State.setRes_regs (s : State) (r : Res) : (s.setRes r).regs = s.regs := (rfl)
@[simp] theorem State.setRes_cmp (s : State) (r : Res) : (s.setRes r).cmp = s.cmp := (rfl)
@[simp] theorem State.setRes_mem (s : State) (r : Res) : (s.setRes r).mem = s.mem := (rfl)
@[simp] theorem State.setRes_store (s : State) (r : Res) : (s.setRes r).store = s.store := (rfl)
@[simp] theorem State.setRes_halted (s : State) (r : Res) : (s.setRes r).halted = s.halted := (rfl)
@[simp] theorem State.setRes_fault (s : State) (r : Res) : (s.setRes r).fault = s.fault := (rfl)

@[simp] theorem State.halt_cfg (s : State) : s.halt.cfg = s.cfg := (rfl)
@[simp] theorem State.halt_regs (s : State) : s.halt.regs = s.regs := (rfl)
@[simp] theorem State.halt_cmp (s : State) : s.halt.cmp = s.cmp := (rfl)
@[simp] theorem State.halt_mem (s : State) : s.halt.mem = s.mem := (rfl)
@[simp] theorem State.halt_store (s : State) : s.halt.store = s.store := (rfl)
@[simp] theorem State.halt_fault (s : State) : s.halt.fault = s.fault := (rfl)
@[simp] theorem State.halt_res (s : State) : s.halt.res = s.res := (rfl)

@[simp] theorem State.takeFetchFault_cfg (s : State) : s.takeFetchFault.cfg = s.cfg := (rfl)
@[simp] theorem State.takeFetchFault_regs (s : State) : s.takeFetchFault.regs = s.regs := (rfl)
@[simp] theorem State.takeFetchFault_cmp (s : State) : s.takeFetchFault.cmp = s.cmp := (rfl)
@[simp] theorem State.takeFetchFault_mem (s : State) : s.takeFetchFault.mem = s.mem := (rfl)
@[simp] theorem State.takeFetchFault_store (s : State) : s.takeFetchFault.store = s.store := (rfl)
@[simp] theorem State.takeFetchFault_halted (s : State) : s.takeFetchFault.halted = s.halted := (rfl)
@[simp] theorem State.takeFetchFault_res (s : State) : s.takeFetchFault.res = s.res := (rfl)

@[simp] theorem State.setCmp_cmp (s : State) (v : Word) : (s.setCmp v).cmp = v := (rfl)
@[simp] theorem State.memWrite_mem (s : State) (a : Int) (v : Word) :
    (s.memWrite a v).mem = writeWord s.mem (idx a).toNat v := (rfl)
@[simp] theorem State.setRes_res (s : State) (r : Res) : (s.setRes r).res = some r := (rfl)
@[simp] theorem State.halt_halted (s : State) : s.halt.halted = true := (rfl)
@[simp] theorem State.takeFetchFault_fault (s : State) : s.takeFetchFault.fault = .fetchFault := (rfl)
@[simp] theorem State.raise_eq (s : State) (e : Res) : s.raise e = (s, e) := (rfl)

@[simp] theorem Regs.get_set (g : Regs) (r r' : Reg) (v : Word) :
    (g.set r v).get r' = if r' = r then v else g.get r' := by
  cases r <;> cases r' <;> rfl

@[simp] theorem State.reg_setReg (s : State) (r r' : Reg) (v : Word) :
    (s.setReg r v).reg r' = if r' = r then v else s.reg r' := by
  simp [State.reg, State.setReg]

@[simp] theorem State.reg_setPc (s : State) (r : Reg) (t : Word) :
    (s.setPc t).reg r = if r = .eip then t else s.reg r := by
  simp [State.setPc]

@[simp] theorem State.reg_advance (s : State) (r : Reg) :
    s.advance.reg r = if r = .eip then nextSlot s.pc else s.reg r := by
  simp [State.advance]

@[simp] theorem State.pc_setPc (s : State) (t : Word) : (s.setPc t).pc = t := by
  simp [State.pc]

@[simp] theorem State.pc_advance (s : State) : s.advance.pc = nextSlot s.pc := by
  simp [State.advance]

@[simp] theorem State.reg_setCmp (s : State) (v : Word) (r' : Reg) : (s.setCmp v).reg r' = s.reg r' := (rfl)
@[simp] theorem State.pc_setCmp (s : State) (v : Word) : (s.setCmp v).pc = s.pc := (rfl)

@[simp] theorem State.reg_memWrite (s : State) (a : Int) (v : Word) (r' : Reg) : (s.memWrite a v).reg r' = s.reg r' := (rfl)
@[simp] theorem State.pc_memWrite (s : State) (a : Int) (v : Word) : (s.memWrite a v).pc = s.pc := (rfl)

@[simp] theorem State.reg_setRes (s : State) (r : Res) (r' : Reg) : (s.setRes r).reg r' = s.reg r' := (rfl)
@[simp] theorem State.pc_setRes (s : State) (r : Res) : (s.setRes r).pc = s.pc := (rfl)

@[simp] theorem State.reg_halt (s : State) (r' : Reg) : s.halt.reg r' = s.reg r' := (rfl)
@[simp] theorem State.pc_halt (s : State) : s.halt.pc = s.pc := (rfl)

@[simp] theorem State.reg_takeFetchFault (s : State) (r' : Reg) : s.takeFetchFault.reg r' = s.reg r' := (rfl)
@[simp] theorem State.pc_takeFetchFault (s : State) : s.takeFetchFault.pc = s.pc := (rfl)

/-- What reads only parameters, store or registers does not see the other updates. -/
theorem State.resolveLabel_congr {s t : State} (hc : t.cfg = s.cfg) (hs : t.store = s.store)
    (tok : Token) : t.resolveLabel tok = s.resolveLabel tok := by
  simp [State.resolveLabel, hc, hs]

theorem State.validPc_congr {s t : State} (hs : t.store = s.store) (a : Int) :
    t.validPc a = s.validPc a := by
  unfold State.validPc State.icount
  rw [hs]

@[simp] theorem State.ea_setRes (s : State) (r : Res) (b : Reg) (o : Word) :
    (s.setRes r).ea b o = s.ea b o := (rfl)

/-- Writing a register its own value changes nothing. -/
theorem State.setReg_self (s : State) (r : Reg) : s.setReg r (s.reg r) = s := by
  cases r <;> rfl

end Sys2Proof.Machine
end

