-- ==== Sys2Proof/Laws/Executors.lean ====
section
/-! SUPPORT. For each executor, once, everything it can do (to be cited instead of unfolding it), and
what no executor touches. -/

namespace Sys2Proof.Machine

/-! ### The kind checks are the matrices of R117 -/

theorem illegalMove_eq (a b : Operand) : illegalMove a b = !moveAllowed a b := by
  cases a <;> cases b <;> rfl

theorem illegalCompare_eq (a b : Operand) : illegalCompare a b = !compareAllowed a b := by
  cases a <;> cases b <;> rfl

theorem illegalPush_eq (a : Operand) : illegalPush a = !pushAllowed a := by cases a <;> rfl

theorem illegalPop_eq (a : Operand) : illegalPop a = !popAllowed a := by cases a <;> rfl

/-! ### Operands -/

/-- Where a destination that is not a constant has a valid address, it has a value (R93, R94). -/
theorem State.value_of_destOk (s : State) (a : Operand) (h : popAllowed a = true)
    (hd : s.destOk a = true) : ∃ v, s.value a = some v := by
  cases a <;> simp_all [State.value, State.destOk, popAllowed]

theorem State.destOk_of_value (s : State) (a : Operand) (v : Word) (h : s.value a = some v) :
    s.destOk a = true := by
  cases a <;> simp_all [State.value, State.destOk]

@[simp] theorem State.writeOperand_register (s : State) (r : Reg) (v : Word) :
    s.writeOperand (.register r) v = s.setReg r v := (rfl)

@[simp] theorem State.writeOperand_memory (s : State) (r : Reg) (o v : Word) :
    s.writeOperand (.memory r o) v = s.memWrite (s.ea r o) v := (rfl)

@[simp] theorem State.writeOperand_cfg (s : State) (d : Operand) (v : Word) :
    (s.writeOperand d v).cfg = s.cfg := by cases d <;> rfl

@[simp] theorem State.writeOperand_store (s : State) (d : Operand) (v : Word) :
    (s.writeOperand d v).store = s.store := by cases d <;> rfl

@[simp] theorem State.writeOperand_cmp (s : State) (d : Operand) (v : Word) :
    (s.writeOperand d v).cmp = s.cmp := by cases d <;> rfl

@[simp] theorem State.writeOperand_halted (s : State) (d : Operand) (v : Word) :
    (s.writeOperand d v).halted = s.halted := by cases d <;> rfl

@[simp] theorem State.writeOperand_fault (s : State) (d : Operand) (v : Word) :
    (s.writeOperand d v).fault = s.fault := by cases d <;> rfl

/-! ### What each executor can do -/

/-- `Exec_MOVL` (R111): a kind error, an address error, or the move. -/
theorem State.moveExec_cases (s : State) (a b : Operand) :
    (moveAllowed a b = false ∧ s.moveExec a b = (s, .instrError)) ∨
    (moveAllowed a b = true ∧ (s.value a = none ∨ s.destOk b = false) ∧
      s.moveExec a b = (s, .memError)) ∨
    (∃ v, moveAllowed a b = true ∧ s.value a = some v ∧ s.destOk b = true ∧
      s.moveExec a b = (s.writeOperand b v, .ok)) := by
  unfold State.moveExec
  rw [illegalMove_eq]
  cases moveAllowed a b <;> cases s.value a <;> cases s.destOk b <;> simp

/-- `Exec_ADDL` (R112): a kind error, an address error, or the sum. -/
theorem State.addExec_cases (s : State) (a b : Operand) :
    (moveAllowed a b = false ∧ s.addExec a b = (s, .instrError)) ∨
    (moveAllowed a b = true ∧ (s.value a = none ∨ s.value b = none) ∧
      s.addExec a b = (s, .memError)) ∨
    (∃ v w, moveAllowed a b = true ∧ s.value a = some v ∧ s.value b = some w ∧
      s.addExec a b = (s.writeOperand b (addResult w v), .ok)) := by
  unfold State.addExec
  rw [illegalMove_eq]
  cases moveAllowed a b <;> cases s.value a <;> cases s.value b <;> simp

/-- `Exec_PUSHL` (R113): a kind error, an address error, or the push. -/
theorem State.pushExec_cases (s : State) (a : Operand) :
    (pushAllowed a = false ∧ s.pushExec a = (s, .instrError)) ∨
    (pushAllowed a = true ∧
      (s.value a = none ∨ validData s.cfg ((s.reg .esp).toInt - 4) = false) ∧
      s.pushExec a = (s, .memError)) ∨
    (∃ v, pushAllowed a = true ∧ s.value a = some v ∧
      validData s.cfg ((s.reg .esp).toInt - 4) = true ∧
      s.pushExec a = ((s.setReg .esp (wrap32 ((s.reg .esp).toInt - 4))).memWrite
        ((s.reg .esp).toInt - 4) v, .ok)) := by
  unfold State.pushExec
  rw [illegalPush_eq]
  cases pushAllowed a <;> cases s.value a <;>
    cases hv : validData s.cfg ((s.reg .esp).toInt - 4) <;> simp [hv]

/-- `Exec_POPL` (R114): a kind error, an address error, or the pop. -/
theorem State.popExec_cases (s : State) (a : Operand) :
    (popAllowed a = false ∧ s.popExec a = (s, .instrError)) ∨
    (popAllowed a = true ∧
      (validData s.cfg (s.reg .esp).toInt = false ∨ s.destOk a = false) ∧
      s.popExec a = (s, .memError)) ∨
    (popAllowed a = true ∧ validData s.cfg (s.reg .esp).toInt = true ∧ s.destOk a = true ∧
      s.popExec a = ((s.writeOperand a (s.memRead (s.reg .esp).toInt)).setReg .esp
        (nextSlot ((s.writeOperand a (s.memRead (s.reg .esp).toInt)).reg .esp)), .ok)) := by
  unfold State.popExec
  rw [illegalPop_eq]
  cases popAllowed a <;> cases hv : validData s.cfg (s.reg .esp).toInt <;>
    cases s.destOk a <;> simp [hv]

/-- `Exec_CMPL` (R115): a kind error, an address error, or the comparison. -/
theorem State.compareExec_cases (s : State) (a b : Operand) :
    (compareAllowed a b = false ∧ s.compareExec a b = (s, .instrError)) ∨
    (compareAllowed a b = true ∧ (s.value a = none ∨ s.value b = none) ∧
      s.compareExec a b = (s, .memError)) ∨
    (∃ v w, compareAllowed a b = true ∧ s.value a = some v ∧ s.value b = some w ∧
      s.compareExec a b = (s.setCmp (compareResult v w), .ok)) := by
  unfold State.compareExec
  rw [illegalCompare_eq]
  cases compareAllowed a b <;> cases s.value a <;> cases s.value b <;> simp

/-- `Exec_J` (R130): the target, or one slot further; only `pc` is written. -/
theorem State.jumpExec_cases (s : State) (m : Cond) (t : Token) :
    s.jumpExec m t = (s.advance, .pcError) ∨ s.jumpExec m t = (s.advance, .ok) ∨
    (∃ a, s.resolveLabel t = some a ∧ condHolds m s.cmp = true ∧
      s.jumpExec m t = (s.setPc (wrap32 a), .ok)) := by
  unfold State.jumpExec
  cases s.resolveLabel t with
  | none => simp
  | some a => cases hv : s.validPc a <;> cases condHolds m s.cmp <;> simp [hv]

/-- `Exec_CALL` (R136): nothing, or a push of the next address and a jump. -/
theorem State.callExec_cases (s : State) (t : Token) :
    s.callExec t = (s, .pcError) ∨
    (∃ a, s.resolveLabel t = some a ∧
      s.callExec t = ((s.advance.pushExec (.register .eip)).1.setPc (wrap32 a),
        (s.advance.pushExec (.register .eip)).2)) := by
  unfold State.callExec
  cases s.resolveLabel t with
  | none => simp
  | some a => cases hv : s.validPc a <;> simp [hv]

/-- `Exec_RET` (R137): the state is that of the pop into `pc`, whatever the result. -/
theorem State.retExec_fst (s : State) : s.retExec.1 = (s.popExec (.register .eip)).1 := by
  unfold State.retExec
  simp only [State.raise_eq]
  split
  · split <;> rfl
  · rfl

/-! ### What no executor touches -/

theorem sameSetup_refl (s : State) : sameSetup s s := ⟨rfl, rfl, rfl, rfl⟩

theorem sameSetup_trans {s t u : State} (h : sameSetup s t) (k : sameSetup t u) : sameSetup s u :=
  ⟨k.1.trans h.1, k.2.1.trans h.2.1, k.2.2.1.trans h.2.2.1, k.2.2.2.trans h.2.2.2⟩

theorem sameSetup_setReg (s : State) (r : Reg) (v : Word) : sameSetup s (s.setReg r v) :=
  sameSetup_refl s

theorem sameSetup_setPc (s : State) (v : Word) : sameSetup s (s.setPc v) := sameSetup_refl s

theorem sameSetup_advance (s : State) : sameSetup s s.advance := sameSetup_refl s

theorem sameSetup_setRes (s : State) (r : Res) : sameSetup s (s.setRes r) := sameSetup_refl s

theorem sameSetup_memWrite (s : State) (a : Int) (v : Word) : sameSetup s (s.memWrite a v) :=
  sameSetup_refl s

theorem sameSetup_writeOperand (s : State) (d : Operand) (v : Word) :
    sameSetup s (s.writeOperand d v) := by
  cases d <;> exact sameSetup_refl s

theorem State.moveExec_sameSetup (s : State) (a b : Operand) : sameSetup s (s.moveExec a b).1 := by
  obtain h | h | ⟨v, -, -, -, h⟩ := s.moveExec_cases a b
  · rw [h.2]; exact sameSetup_refl s
  · rw [h.2.2]; exact sameSetup_refl s
  · rw [h]; exact sameSetup_writeOperand s b v

theorem State.addExec_sameSetup (s : State) (a b : Operand) : sameSetup s (s.addExec a b).1 := by
  obtain h | h | ⟨v, w, -, -, -, h⟩ := s.addExec_cases a b
  · rw [h.2]; exact sameSetup_refl s
  · rw [h.2.2]; exact sameSetup_refl s
  · rw [h]; exact sameSetup_writeOperand s b _

theorem State.pushExec_sameSetup (s : State) (a : Operand) : sameSetup s (s.pushExec a).1 := by
  obtain h | h | ⟨v, -, -, -, h⟩ := s.pushExec_cases a
  · rw [h.2]; exact sameSetup_refl s
  · rw [h.2.2]; exact sameSetup_refl s
  · rw [h]; exact sameSetup_refl s

theorem State.popExec_sameSetup (s : State) (a : Operand) : sameSetup s (s.popExec a).1 := by
  obtain h | h | ⟨-, -, -, h⟩ := s.popExec_cases a
  · rw [h.2]; exact sameSetup_refl s
  · rw [h.2.2]; exact sameSetup_refl s
  · rw [h]; exact sameSetup_trans (sameSetup_writeOperand s a _) (sameSetup_setReg _ _ _)

theorem State.compareExec_sameSetup (s : State) (a b : Operand) :
    sameSetup s (s.compareExec a b).1 := by
  obtain h | h | ⟨v, w, -, -, -, h⟩ := s.compareExec_cases a b
  · rw [h.2]; exact sameSetup_refl s
  · rw [h.2.2]; exact sameSetup_refl s
  · rw [h]; exact sameSetup_refl s

theorem State.jumpExec_sameSetup (s : State) (m : Cond) (t : Token) :
    sameSetup s (s.jumpExec m t).1 := by
  obtain h | h | ⟨a, -, -, h⟩ := s.jumpExec_cases m t <;> rw [h] <;> exact sameSetup_refl s

theorem State.callExec_sameSetup (s : State) (t : Token) : sameSetup s (s.callExec t).1 := by
  obtain h | ⟨a, -, h⟩ := s.callExec_cases t
  · rw [h]; exact sameSetup_refl s
  · rw [h]; exact s.advance.pushExec_sameSetup (.register .eip)

theorem State.retExec_sameSetup (s : State) : sameSetup s s.retExec.1 := by
  rw [s.retExec_fst]; exact s.popExec_sameSetup _

/-! ### Memory stays canonical and inside its bounds -/

/-- The part of the invariant about memory. -/
def memInv (s : State) : Prop := Memory.wf s.mem ∧ Memory.within s.cfg s.mem

theorem memInv_memWrite {s : State} (h : memInv s) {a : Int} (ha : validData s.cfg a = true)
    (v : Word) : memInv (s.memWrite a v) :=
  ⟨writeWord_wf h.1 _ _, writeWord_within h.2 (validData_idx ha).2 _⟩

theorem memInv_writeOperand {s : State} (h : memInv s) {d : Operand} (hd : s.destOk d = true)
    (v : Word) : memInv (s.writeOperand d v) := by
  cases d with
  | memory r o => exact memInv_memWrite h hd v
  | register r => exact h
  | constant w => exact h
  | invalid => exact h

theorem State.moveExec_memInv {s : State} (h : memInv s) (a b : Operand) :
    memInv (s.moveExec a b).1 := by
  obtain k | k | ⟨v, -, -, hd, k⟩ := s.moveExec_cases a b
  · rw [k.2]; exact h
  · rw [k.2.2]; exact h
  · rw [k]; exact memInv_writeOperand h hd v

theorem State.addExec_memInv {s : State} (h : memInv s) (a b : Operand) :
    memInv (s.addExec a b).1 := by
  obtain k | k | ⟨v, w, -, -, hd, k⟩ := s.addExec_cases a b
  · rw [k.2]; exact h
  · rw [k.2.2]; exact h
  · rw [k]; exact memInv_writeOperand h (s.destOk_of_value b w hd) _

theorem State.pushExec_memInv {s : State} (h : memInv s) (a : Operand) :
    memInv (s.pushExec a).1 := by
  obtain k | k | ⟨v, -, -, hd, k⟩ := s.pushExec_cases a
  · rw [k.2]; exact h
  · rw [k.2.2]; exact h
  · rw [k]; exact memInv_memWrite (s := s.setReg .esp _) h hd v

theorem State.popExec_memInv {s : State} (h : memInv s) (a : Operand) :
    memInv (s.popExec a).1 := by
  obtain k | k | ⟨-, -, hd, k⟩ := s.popExec_cases a
  · rw [k.2]; exact h
  · rw [k.2.2]; exact h
  · rw [k]; exact memInv_writeOperand h hd _

end Sys2Proof.Machine
end

