-- ==== Sys2Proof/Laws/Launch.lean ====
section
/-! SUPPORT. Everything the loader, a preset and a launch can answer. -/

namespace Sys2Proof.Machine

/-- The loader accepts exactly the admitted programs, and changes the store alone. -/
theorem State.loadProgram_ok {s t : State} {program : List Line} :
    s.loadProgram program = .ok t ↔
      (∀ l ∈ program.take s.cfg.istoreSlots, (decodeLine l).admitted = true) ∧
        t = { s with store := program.take s.cfg.istoreSlots } := by
  unfold State.loadProgram
  split
  · rename_i slot h
    obtain ⟨hlt, hbad, -⟩ := List.findIdx?_eq_some_iff_getElem.1 h
    refine ⟨(fun e => by cases e), fun e => ?_⟩
    rw [e.1 _ (List.getElem_mem hlt)] at hbad
    cases hbad
  · rename_i h
    have hall : ∀ l ∈ program.take s.cfg.istoreSlots, (decodeLine l).admitted = true := by
      intro l hl
      simpa using List.findIdx?_eq_none_iff.1 h l hl
    refine ⟨fun e => ⟨hall, ?_⟩, fun e => by rw [e.2]⟩
    injection e with e
    exact e.symm

/-- A preset keeps parameters, store and stop flags. -/
theorem State.preset_sameSetup {s t : State} {p : Preset} (h : s.preset p = .ok t) : sameSetup s t := by
  cases p with
  | reg r v => injection h with h; subst h; exact sameSetup_setReg s r v
  | cmp v => injection h with h; subst h; exact sameSetup_refl s
  | word k v =>
    simp only [State.preset] at h
    split at h
    · injection h with h; subst h; exact sameSetup_refl s
    · cases h

theorem State.presets_sameSetup {s t : State} {ps : List Preset} (h : s.presets ps = .ok t) :
    sameSetup s t := by
  induction ps generalizing s with
  | nil => injection h with h; subst h; exact sameSetup_refl s
  | cons p ps ih =>
    simp only [State.presets] at h
    split at h
    · rename_i u hu
      exact sameSetup_trans (State.preset_sameSetup hu) (ih h)
    · cases h

/-- A launch that succeeds: the program is admitted, and presets follow the loaded reset state. -/
theorem launch_ok {c : Config} {m : Memory} {program : List Line} {ps : List Preset} {s : State}
    (h : launch c m program ps = .ok s) :
    (∀ l ∈ program.take c.istoreSlots, (decodeLine l).admitted = true) ∧
      State.presets { State.resetWith c m with store := program.take c.istoreSlots } ps = .ok s := by
  unfold launch at h
  split at h
  · rename_i t ht
    obtain ⟨ha, rfl⟩ := State.loadProgram_ok.1 ht
    exact ⟨ha, h⟩
  · cases h

end Sys2Proof.Machine
end

