-- ==== Sys2Proof/Laws/Packed.lean ====
section
/-! SUPPORT. A packed word is its fields, and its fields are read back. -/

namespace Sys2Proof

theorem packed_fields (w : BitVec 80) :
    packedOp w ++ packedK1 w ++ packedR1 w ++ packedV1 w ++ packedK2 w ++ packedR2 w ++ packedV2 w ++
      packedZero w = w := by
  unfold packedOp packedK1 packedR1 packedV1 packedK2 packedR2 packedV2 packedZero
  rw [BitVec.extractLsb'_append_extractLsb'_eq_extractLsb' (by rfl),
    BitVec.extractLsb'_append_extractLsb'_eq_extractLsb' (by rfl),
    BitVec.extractLsb'_append_extractLsb'_eq_extractLsb' (by rfl),
    BitVec.extractLsb'_append_extractLsb'_eq_extractLsb' (by rfl),
    BitVec.extractLsb'_append_extractLsb'_eq_extractLsb' (by rfl),
    BitVec.extractLsb'_append_extractLsb'_eq_extractLsb' (by rfl),
    BitVec.extractLsb'_append_extractLsb'_eq_extractLsb' (by rfl)]
  simp

/-- A word whose two low bits are zero is the packing of its own fields. -/
theorem packFields_of_fields (w : BitVec 80) (h : packedZero w = 0#2) :
    packFields (packedOp w) (packedK1 w) (packedR1 w) (packedV1 w) (packedK2 w) (packedR2 w)
      (packedV2 w) = w := by
  have := packed_fields w
  rw [h] at this
  exact this

theorem packedOp_packFields (op : BitVec 4) (k1 : BitVec 2) (r1 : BitVec 3) (v1 : Word) (k2 : BitVec 2)
    (r2 : BitVec 3) (v2 : Word) : packedOp (packFields op k1 r1 v1 k2 r2 v2) = op := by
  unfold packedOp packFields
  ext i hi
  simp only [BitVec.getElem_extractLsb', BitVec.getLsbD_append]
  repeat (rw [if_neg (by omega)])
  rw [show 76 + i - 2 - 32 - 3 - 2 - 32 - 3 - 2 = i by omega]
  exact BitVec.getLsbD_eq_getElem hi

theorem packedK1_packFields (op : BitVec 4) (k1 : BitVec 2) (r1 : BitVec 3) (v1 : Word) (k2 : BitVec 2)
    (r2 : BitVec 3) (v2 : Word) : packedK1 (packFields op k1 r1 v1 k2 r2 v2) = k1 := by
  unfold packedK1 packFields
  ext i hi
  simp only [BitVec.getElem_extractLsb', BitVec.getLsbD_append]
  repeat (first | rw [if_neg (by omega)] | rw [if_pos (by omega)])
  rw [show 74 + i - 2 - 32 - 3 - 2 - 32 - 3 = i by omega]
  exact BitVec.getLsbD_eq_getElem hi

theorem packedV1_packFields (op : BitVec 4) (k1 : BitVec 2) (r1 : BitVec 3) (v1 : Word) (k2 : BitVec 2)
    (r2 : BitVec 3) (v2 : Word) : packedV1 (packFields op k1 r1 v1 k2 r2 v2) = v1 := by
  unfold packedV1 packFields
  ext i hi
  simp only [BitVec.getElem_extractLsb', BitVec.getLsbD_append]
  repeat (first | rw [if_neg (by omega)] | rw [if_pos (by omega)])
  rw [show 39 + i - 2 - 32 - 3 - 2 = i by omega]
  exact BitVec.getLsbD_eq_getElem hi

end Sys2Proof
end

