-- ==== Sys2Proof/Laws/Text.lean ====
section
/-! SUPPORT. Tokens of a line built by the encoder, and the value of the digits it writes. -/

namespace Sys2Proof

/-- No character of the text is a space (R13). -/
def noSpace (t : Token) : Prop := ∀ c ∈ t, c ≠ ' '

theorem noSpace_of_wf {t : Token} (h : Token.wf t = true) : noSpace t := by
  intro c hc
  simp only [Token.wf, List.all_eq_true, tokenChar, Bool.and_eq_true, bne_iff_ne] at h
  exact (h c hc).1.2

/-! ### Splitting a line -/

theorem nextPiece_nil : nextPiece [] = ([], []) := rfl

theorem nextPiece_space (l : Line) : nextPiece (' ' :: l) = nextPiece l := by
  simp [nextPiece]

/-- A nonempty text without spaces is the first piece of itself followed by nothing or a space. -/
theorem nextPiece_append {t : Token} (ht : noSpace t) (hn : t ≠ []) {l : Line}
    (hl : l = [] ∨ l.head? = some ' ') : nextPiece (t ++ l) = (t, l) := by
  have hw : t.takeWhile (· != ' ') = t := by
    rw [List.takeWhile_eq_self_iff]
    simpa [noSpace] using ht
  have hd : t.dropWhile (· != ' ') = [] := by
    rw [List.dropWhile_eq_nil_iff]
    simpa [noSpace] using ht
  have h0 : (t ++ l).dropWhile (· == ' ') = t ++ l := by
    cases t with
    | nil => exact absurd rfl hn
    | cons c t =>
      have : c ≠ ' ' := ht c (by simp)
      simp [this]
  have hl1 : l.takeWhile (· != ' ') = [] := by
    rcases hl with rfl | hl
    · rfl
    · cases l with
      | nil => rfl
      | cons c l => simp_all
  have hl2 : l.dropWhile (· != ' ') = l := by
    rcases hl with rfl | hl
    · rfl
    · cases l with
      | nil => rfl
      | cons c l => simp_all
  unfold nextPiece
  rw [h0, List.takeWhile_append, List.dropWhile_append, hw, hd]
  simp [hl1, hl2]

theorem nextPiece_self {t : Token} (ht : noSpace t) : nextPiece t = (t, []) := by
  by_cases hn : t = []
  · subst hn; rfl
  · simpa using nextPiece_append ht hn (l := []) (Or.inl rfl)

/-- `Tokenize` of a mnemonic and two operand tokens joined by the encoder (R62, R63). -/
theorem tokenize_joinTokens {m t1 t2 : Token} (hm : noSpace m) (hn : m ≠ []) (h1 : noSpace t1)
    (h2 : noSpace t2) (h : t1 = [] → t2 = []) : tokenize (joinTokens m t1 t2) = (m, t1, t2) := by
  by_cases e1 : t1 = []
  · have e2 := h e1
    subst e1 e2
    simp only [joinTokens, if_true, List.append_nil, tokenize, nextPiece_self hm, nextPiece_nil]
  · by_cases e2 : t2 = []
    · subst e2
      have : joinTokens m t1 [] = m ++ ' ' :: t1 := by simp [joinTokens, e1]
      rw [this, tokenize, nextPiece_append hm hn (Or.inr rfl)]
      simp only [nextPiece_space, nextPiece_self h1, nextPiece_nil]
    · have : joinTokens m t1 t2 = m ++ ' ' :: (t1 ++ ' ' :: t2) := by simp [joinTokens, e1, e2]
      rw [this, tokenize, nextPiece_append hm hn (Or.inr rfl)]
      have k := nextPiece_append h1 e1 (l := ' ' :: t2) (Or.inr rfl)
      simp only [nextPiece_space, k, nextPiece_self h2]

/-- A joined line decodes as its three tokens say (R79). -/
theorem decodeLine_joinTokens {m t1 t2 : Token} (hm : noSpace m) (hn : m ≠ []) (h1 : noSpace t1)
    (h2 : noSpace t2) (h : t1 = [] → t2 = []) :
    decodeLine (joinTokens m t1 t2) = instrOf m t1 t2 := by
  simp only [decodeLine, tokenize_joinTokens hm hn h1 h2 h]

/-! ### Decimal digits -/

/-- A digit of the encoder is one the literal reader accepts, with the value it was written for. -/
theorem digitChar_spec : ∀ n < 10, (digitChar n).isDigit = true ∧ (digitChar n).toNat = 48 + n := by
  decide

theorem digitsValue_concat (ds : List Char) (c : Char) :
    digitsValue (ds ++ [c]) = 10 * digitsValue ds + (c.toNat - 48) := by
  simp [digitsValue]

/-- Everything the digit writer does: it puts one digit or more in front of what it was given, and they
read back as the number if there was fuel for all its digits (R67). -/
theorem decimalAux_spec (fuel n : Nat) (acc : List Char) :
    ∃ ds, decimalAux (fuel + 1) n acc = ds ++ acc ∧ ds ≠ [] ∧ (∀ c ∈ ds, c.isDigit = true) ∧
      (n < 10 ^ (fuel + 1) → digitsValue ds = n) := by
  have last := digitChar_spec (n % 10) (Nat.mod_lt n (by decide))
  by_cases hn : n < 10
  · rw [Nat.mod_eq_of_lt hn] at last
    refine ⟨[digitChar n], by rw [decimalAux, if_pos hn]; rfl, by simp, by simpa using last.1, fun _ => ?_⟩
    simp [digitsValue, last.2]
  · rw [decimalAux, if_neg hn]
    cases fuel with
    | zero => exact ⟨[digitChar (n % 10)], rfl, by simp, by simpa using last.1, fun h => by omega⟩
    | succ fuel =>
      obtain ⟨ds, he, -, hd, hv⟩ := decimalAux_spec fuel (n / 10) (digitChar (n % 10) :: acc)
      refine ⟨ds ++ [digitChar (n % 10)], by rw [he, List.append_assoc]; rfl, by simp, ?_, fun h => ?_⟩
      · simpa [or_imp, forall_and] using ⟨hd, last.1⟩
      · rw [digitsValue_concat, hv (by rw [pow_succ] at h; omega), last.2]
        omega

/-- The decimal text of a 32-bit number: digits, at least one, that read back as the number (R67). -/
theorem decimal_spec (n : Nat) : decimal n ≠ [] ∧ (∀ c ∈ decimal n, c.isDigit = true) ∧
    (n < 10 ^ 10 → digitsValue (decimal n) = n) := by
  obtain ⟨ds, he, h⟩ := decimalAux_spec 9 n []
  rw [List.append_nil] at he
  rw [decimal, he]
  exact h

theorem decimal_ne_nil (n : Nat) : decimal n ≠ [] := (decimal_spec n).1

theorem decimal_isDigit (n : Nat) : ∀ c ∈ decimal n, c.isDigit = true := (decimal_spec n).2.1

theorem digitsValue_decimal {n : Nat} (h : n < 10 ^ 10) : digitsValue (decimal n) = n :=
  (decimal_spec n).2.2 h

/-- A digit is none of the characters that give a token its class. -/
theorem ne_of_isDigit {c : Char} (h : c.isDigit = true) {d : Char} (hd : d.isDigit = false) :
    c ≠ d := by
  rintro rfl
  simp_all

/-- A text that begins with a digit has no sign to split off. -/
theorem splitSign_digits {ds : List Char} (h : ∀ c ∈ ds, c.isDigit = true) :
    splitSign ds = (false, ds) := by
  cases ds with
  | nil => rfl
  | cons c ds =>
    have hc := h c (by simp)
    have h1 : c ≠ '-' := ne_of_isDigit hc rfl
    have h2 : c ≠ '+' := ne_of_isDigit hc rfl
    unfold splitSign
    split <;> simp_all

/-- The text of an integer reads back as the integer, for every 32-bit value (R67). -/
theorem parseInt_intText (v : Word) : parseInt (intText v) = some v := by
  have hlt : v.toInt.natAbs < 10 ^ 10 := by have := v.toInt_lt; have := v.le_toInt; omega
  have hd := decimal_isDigit v.toInt.natAbs
  have hv := digitsValue_decimal hlt
  have h1 := v.toInt_lt
  have h2 := v.le_toInt
  simp only [Nat.add_one_sub_one] at h1 h2
  unfold intText parseInt
  split
  · simp only [splitSign, hv]
    rw [if_pos]
    · simp only [if_true]
      rw [show (-(v.toInt.natAbs : Int)) = v.toInt by omega, BitVec.ofInt_toInt]
    · refine ⟨decimal_ne_nil _, by simpa using hd, ?_, ?_⟩ <;> simp only [if_true] <;> omega
  · rw [splitSign_digits hd]
    simp only [hv, Bool.false_eq_true, if_false]
    rw [if_pos]
    · rw [show (v.toInt.natAbs : Int) = v.toInt by omega, BitVec.ofInt_toInt]
    · exact ⟨decimal_ne_nil _, by simpa using hd, by omega, by omega⟩

/-! ### Registers -/

theorem decodeReg_spelling (r : Reg) : decodeReg r.spelling = some r := by
  cases r <;> rfl

/-- A token is a register token only if it is that register's spelling (R66). -/
theorem spelling_of_decodeReg {t : Token} {r : Reg} (h : decodeReg t = some r) : t = r.spelling := by
  have := List.find?_some h
  simpa using (beq_iff_eq.1 this).symm

theorem spelling_noParen (r : Reg) : ∀ c ∈ r.spelling, c ≠ '(' ∧ c ≠ ')' ∧ c ≠ ' ' := by
  cases r <;> simp [Reg.spelling]

theorem decodeReg_none {t : Token} (h : t.head? ≠ some '%') : decodeReg t = none := by
  unfold decodeReg
  rw [List.find?_eq_none]
  intro r _ hr
  rw [beq_iff_eq] at hr
  subst hr
  cases r <;> simp [Reg.spelling] at h

/-! ### The rules of the operand decoder, one by one (R91) -/

theorem decodeOperand_register (r : Reg) : decodeOperand r.spelling = .operand (.register r) := by
  simp [decodeOperand, decodeReg_spelling]

theorem decodeOperand_constant (n : List Char) : decodeOperand ('$' :: n) = decodeConstant n := by
  unfold decodeOperand
  rw [decodeReg_none (by simp)]
  rfl

theorem decodeOperand_memory {t : Token} (h : t.head? ≠ some '%') (h' : t.head? ≠ some '$') :
    decodeOperand t = decodeMemory t := by
  simp [decodeOperand, decodeReg_none h, h']

/-- A token of the shape `before(inner)` (R68). -/
theorem decodeMemory_parens {before inner : List Char} (hb : ∀ c ∈ before, c ≠ '(')
    (hi : ∀ c ∈ inner, c ≠ '(' ∧ c ≠ ')' ∧ c ≠ ' ') :
    decodeMemory (before ++ ['('] ++ inner ++ [')']) = match parseOffset before with
      | none => .malformed .parenthesisShape
      | some o => decodeBase inner o := by
  have t1 : before.takeWhile (· != '(') = before := by
    rw [List.takeWhile_eq_self_iff]; simpa using hb
  have t2 : before.dropWhile (· != '(') = [] := by
    rw [List.dropWhile_eq_nil_iff]; simpa using hb
  have t3 : inner.takeWhile (· != ')') = inner := by
    rw [List.takeWhile_eq_self_iff]; simpa using fun c hc => (hi c hc).2.1
  have t4 : inner.dropWhile (· != ')') = [] := by
    rw [List.dropWhile_eq_nil_iff]; simpa using fun c hc => (hi c hc).2.1
  have hn : ¬ ('(' ∈ inner ∨ ' ' ∈ inner) := by
    rintro (h | h)
    · exact (hi _ h).1 rfl
    · exact (hi _ h).2.2 rfl
  rw [show before ++ ['('] ++ inner ++ [')'] = before ++ '(' :: (inner ++ [')']) by simp]
  unfold decodeMemory
  cases h : parseOffset before <;>
    simp [List.takeWhile_append, List.dropWhile_append, t1, t2, t3, t4, hn, h]

/-- The text of an integer has none of the characters that shape a token, and does not begin one. -/
theorem intText_plain (v : Word) :
    ∀ c ∈ intText v, c ≠ '(' ∧ c ≠ ')' ∧ c ≠ ' ' ∧ c ≠ '%' ∧ c ≠ '$' := by
  have key : ∀ c ∈ decimal v.toInt.natAbs, c ≠ '(' ∧ c ≠ ')' ∧ c ≠ ' ' ∧ c ≠ '%' ∧ c ≠ '$' := by
    intro c hc
    have := decimal_isDigit _ c hc
    exact ⟨ne_of_isDigit this rfl, ne_of_isDigit this rfl, ne_of_isDigit this rfl,
      ne_of_isDigit this rfl, ne_of_isDigit this rfl⟩
  intro c hc
  unfold intText at hc
  split at hc
  · rcases List.mem_cons.1 hc with rfl | hc
    · decide
    · exact key c hc
  · exact key c hc

theorem intText_ne_nil (v : Word) : intText v ≠ [] := by
  unfold intText
  split
  · simp
  · exact decimal_ne_nil _

end Sys2Proof
end

