-- ==== Sys2Proof/Laws/PerInstr.lean ====
section
/-! SUPPORT. Per instruction: the encoder's line obeys what the loader guarantees of a line (R61). -/

namespace Sys2Proof

theorem spacesSingle_noSpace {t : Token} (h : noSpace t) : spacesSingle t = true := by
  induction t with
  | nil => rfl
  | cons c t ih =>
    have hc := h c (by simp)
    cases t with
    | nil => simp [spacesSingle, hc]
    | cons d t => simp [spacesSingle, hc, ih (fun e he => h e (by simp [he]))]

/-- A token, one space and a text that begins with no space. -/
theorem spacesSingle_append {t : Token} (h : noSpace t) {c : Char} {l : Line} (hc : c ≠ ' ') :
    spacesSingle (t ++ ' ' :: c :: l) = spacesSingle (c :: l) := by
  induction t with
  | nil => simp [spacesSingle, hc]
  | cons d t ih =>
    have hd : (d == ' ') = false := by simpa using h d (by simp)
    have hc : (c == ' ') = false := by simpa using hc
    have ih := ih (fun e he => h e (by simp [he]))
    cases t with
    | nil => simp [spacesSingle, hd, hc]
    | cons e t => simpa [spacesSingle, hd] using ih

/-- A joined line of well-formed tokens is one the loader may place (R61, R62). -/
theorem loadable_joinTokens {m t1 t2 : Token} (hm : Token.wf m = true) (hn : m ≠ [])
    (h : Token.pairWf t1 t2 = true) : Line.loadable (joinTokens m t1 t2) = true := by
  simp only [Token.pairWf, Bool.and_eq_true] at h
  obtain ⟨⟨h1, h2⟩, h3⟩ := h
  have hall : ∀ {t : Token}, Token.wf t = true →
      t.all (fun c => decide (c.toNat < 128) && c != '\n') = true := by
    intro t ht
    simp only [Token.wf, tokenChar, List.all_eq_true, Bool.and_eq_true] at ht ⊢
    exact fun c hc => ⟨(ht c hc).1.1, (ht c hc).2⟩
  have a0 := hall hm
  have a1 := hall h1
  have a2 := hall h2
  have s0 := noSpace_of_wf hm
  have s1 := noSpace_of_wf h1
  have s2 := noSpace_of_wf h2
  obtain ⟨c, m, rfl⟩ := List.exists_cons_of_ne_nil hn
  have hc : c ≠ ' ' := s0 c (by simp)
  cases t1 with
  | nil =>
    cases t2 with
    | nil => simp_all [joinTokens, Line.loadable, spacesSingle_noSpace]
    | cons e t2 => simp at h3
  | cons d t1 =>
    have hd : d ≠ ' ' := s1 d (by simp)
    cases t2 with
    | nil =>
      have := spacesSingle_append (l := t1) s0 hd
      rw [spacesSingle_noSpace s1] at this
      simp_all [joinTokens, Line.loadable]
    | cons e t2 =>
      have he : e ≠ ' ' := s2 e (by simp)
      have k := spacesSingle_append (l := t1 ++ ' ' :: e :: t2) s0 hd
      have k' := spacesSingle_append (l := t2) s1 he
      rw [spacesSingle_noSpace s2] at k'
      simp_all [joinTokens, Line.loadable]

namespace Laws.Loadable

/-- The line written for a well-formed instruction is one the loader may place (R61). -/
def Statement (i : Instr) : Prop := i.wf = true → Line.loadable (encodeLine i) = true

theorem pairWf_single {t : Token} (h : Token.wf t = true) : Token.pairWf t [] = true := by
  simpa [Token.pairWf, Token.wf] using h

theorem movl (t1 t2 : Token) : Statement (.movl t1 t2) :=
  fun h => loadable_joinTokens (by decide) (by decide) h

theorem addl (t1 t2 : Token) : Statement (.addl t1 t2) :=
  fun h => loadable_joinTokens (by decide) (by decide) h

theorem pushl (t1 : Token) : Statement (.pushl t1) :=
  fun h => loadable_joinTokens (by decide) (by decide) (pairWf_single h)

theorem popl (t1 : Token) : Statement (.popl t1) :=
  fun h => loadable_joinTokens (by decide) (by decide) (pairWf_single h)

theorem cmpl (t1 t2 : Token) : Statement (.cmpl t1 t2) :=
  fun h => loadable_joinTokens (by decide) (by decide) h

theorem jmp (t1 : Token) : Statement (.jmp t1) :=
  fun h => loadable_joinTokens (by decide) (by decide) (pairWf_single h)

theorem je (t1 : Token) : Statement (.je t1) :=
  fun h => loadable_joinTokens (by decide) (by decide) (pairWf_single h)

theorem jne (t1 : Token) : Statement (.jne t1) :=
  fun h => loadable_joinTokens (by decide) (by decide) (pairWf_single h)

theorem jl (t1 : Token) : Statement (.jl t1) :=
  fun h => loadable_joinTokens (by decide) (by decide) (pairWf_single h)

theorem jg (t1 : Token) : Statement (.jg t1) :=
  fun h => loadable_joinTokens (by decide) (by decide) (pairWf_single h)

theorem call (t1 : Token) : Statement (.call t1) :=
  fun h => loadable_joinTokens (by decide) (by decide) (pairWf_single h)

theorem ret : Statement .ret := fun _ => by decide

theorem endMarker : Statement .endMarker := fun _ => by decide

theorem skip : Statement .skip := fun _ => by decide

end Laws.Loadable

end Sys2Proof
end

