-- ==== Sys2Proof/Laws/Step.lean ====
section
/-! SUPPORT. What `exec` and `step` answer, said once, and the arithmetic of `pc`, `ESP` and ADDL. -/

namespace Sys2Proof.Machine

/-! ### Numbers -/

theorem addResult_eq (a b : Word) : addResult a b = a + b := by
  unfold addResult wrap32
  rw [BitVec.ofInt_add, BitVec.ofInt_toInt, BitVec.ofInt_toInt]

theorem compareResult_eq (a b : Word) : compareResult a b = b - a := by
  unfold compareResult wrap32
  rw [Int.sub_eq_add_neg, BitVec.ofInt_add, BitVec.ofInt_neg, BitVec.ofInt_toInt, BitVec.ofInt_toInt,
    BitVec.sub_eq_add_neg]

/-- Below the highest word address the advance does not wrap. -/
theorem nextSlot_toInt {p : Word} (h : p.toInt < 2147483644) : (nextSlot p).toInt = p.toInt + 4 := by
  unfold nextSlot wrap32
  rw [BitVec.toInt_ofInt]
  have := p.le_toInt
  simp only [Int.bmod]
  omega

/-- A stack address that is valid fits in a register. -/
theorem wrap32_toInt_of_validData {s : State} (h : validData s.cfg ((s.reg .esp).toInt - 4) = true) :
    (wrap32 ((s.reg .esp).toInt - 4)).toInt = (s.reg .esp).toInt - 4 := by
  unfold wrap32
  simp only [validData, decide_eq_true_eq] at h
  have := (s.reg .esp).toInt_lt
  rw [BitVec.toInt_ofInt]
  simp only [Int.bmod]
  omega

theorem fetchOk_iff (s : State) : fetchOk s.cfg s.pc.toInt = true ↔
    0 ≤ s.pc.toInt ∧ s.pc.toInt < 4 * (s.cfg.istoreSlots : Int) := by
  unfold fetchOk idx
  rw [decide_eq_true_iff]
  omega

/-! ### The state after a change of `pc` alone -/

theorem onlyPc_advance (s : State) (r : Res) : onlyPc (nextSlot s.pc) r s (s.advance.setRes r) := by
  refine ⟨sameSetup_refl s, ?_, rfl, fun _ => rfl, by simp, rfl⟩
  intro q hq
  simp at hq
  simp [hq]

theorem onlyPc_setPc (s : State) (p : Word) (r : Res) : onlyPc p r s ((s.setPc p).setRes r) := by
  refine ⟨sameSetup_refl s, ?_, rfl, fun _ => rfl, by simp, rfl⟩
  intro q hq
  simp at hq
  simp [hq]

/-! ### A data instruction whose operands decode -/

theorem exec_movl {t1 t2 : Token} {a b : Operand} (h1 : decodeOperand t1 = .operand a)
    (h2 : decodeOperand t2 = .operand b) (s : State) :
    exec (.movl t1 t2) s = finishAdvance (s.moveExec a b) := by
  show execMovl t1 t2 s = _
  simp only [execMovl, withOperand, h1, h2]

theorem exec_addl {t1 t2 : Token} {a b : Operand} (h1 : decodeOperand t1 = .operand a)
    (h2 : decodeOperand t2 = .operand b) (s : State) :
    exec (.addl t1 t2) s = finishAdvance (s.addExec a b) := by
  show execAddl t1 t2 s = _
  simp only [execAddl, withOperand, h1, h2]

theorem exec_cmpl {t1 t2 : Token} {a b : Operand} (h1 : decodeOperand t1 = .operand a)
    (h2 : decodeOperand t2 = .operand b) (s : State) :
    exec (.cmpl t1 t2) s = finishAdvance (s.compareExec a b) := by
  show execCmpl t1 t2 s = _
  simp only [execCmpl, withOperand, h1, h2]

theorem exec_pushl {t1 : Token} {a : Operand} (h1 : decodeOperand t1 = .operand a) (s : State) :
    exec (.pushl t1) s = finishAdvance (s.pushExec a) := by
  show execPushl t1 s = _
  simp only [execPushl, withOperand, h1]

theorem exec_popl {t1 : Token} {a : Operand} (h1 : decodeOperand t1 = .operand a) (s : State) :
    exec (.popl t1) s = finishAdvance (s.popExec a) := by
  show execPopl t1 s = _
  simp only [execPopl, withOperand, h1]

/-! ### Every instruction that answers a next state -/

theorem withOperand_next {t : Token} {k : Operand → Host.Outcome State Fault Refusal} {u : State}
    (h : withOperand t k = .next u) : ∃ a, decodeOperand t = .operand a ∧ k a = .next u := by
  unfold withOperand at h
  split at h
  · rename_i a h1
    exact ⟨a, h1, h⟩
  · cases h

theorem withOperand2_next {t1 t2 : Token} {k : Operand → Operand → Host.Outcome State Fault Refusal}
    {u : State} (h : (withOperand t1 fun a => withOperand t2 fun b => k a b) = .next u) :
    ∃ a b, decodeOperand t1 = .operand a ∧ decodeOperand t2 = .operand b ∧ k a b = .next u := by
  obtain ⟨a, h1, h⟩ := withOperand_next h
  obtain ⟨b, h2, h⟩ := withOperand_next h
  exact ⟨a, b, h1, h2, h⟩

/-- The executor's answer `p` behind a data instruction. -/
def dataAnswer (i : Instr) (s : State) (p : State × Res) : Prop :=
  (∃ t1 t2 a b, decodeOperand t1 = .operand a ∧ decodeOperand t2 = .operand b ∧
    ((i = .movl t1 t2 ∧ p = s.moveExec a b) ∨ (i = .addl t1 t2 ∧ p = s.addExec a b) ∨
      (i = .cmpl t1 t2 ∧ p = s.compareExec a b))) ∨
  (∃ t1 a, decodeOperand t1 = .operand a ∧
    ((i = .pushl t1 ∧ p = s.pushExec a) ∨ (i = .popl t1 ∧ p = s.popExec a)))

/-- The executor's answer `p` behind a jump, CALL, RET or END. -/
def controlAnswer (i : Instr) (s : State) (p : State × Res) : Prop :=
  (∃ m t1, p = s.jumpExec m t1 ∧ i ∈ [Instr.jmp t1, .je t1, .jne t1, .jl t1, .jg t1]) ∨
  (∃ t1, i = .call t1 ∧ p = s.callExec t1) ∨ (i = .ret ∧ p = s.retExec) ∨
  (i = .endMarker ∧ p = (s.halt, .ok))

/-- Everything `exec` can do when it answers a next state: a data executor and the loop's advance, a
control executor alone, or the advance alone. -/
theorem exec_next {i : Instr} {s t : State} (h : exec i s = .next t) :
    (isData i = true ∧ ∃ p : State × Res, t = p.1.advance.setRes p.2 ∧ dataAnswer i s p) ∨
    (isData i = false ∧ ∃ p : State × Res, t = p.1.setRes p.2 ∧ controlAnswer i s p) ∨
    (i = .skip ∧ t = s.advance.setRes .ok) := by
  cases i with
  | movl t1 t2 =>
    obtain ⟨a, b, ha, hb, hk⟩ := withOperand2_next h
    injection hk with hk
    exact .inl ⟨rfl, _, hk.symm, .inl ⟨t1, t2, a, b, ha, hb, .inl ⟨rfl, rfl⟩⟩⟩
  | addl t1 t2 =>
    obtain ⟨a, b, ha, hb, hk⟩ := withOperand2_next h
    injection hk with hk
    exact .inl ⟨rfl, _, hk.symm, .inl ⟨t1, t2, a, b, ha, hb, .inr (.inl ⟨rfl, rfl⟩)⟩⟩
  | cmpl t1 t2 =>
    obtain ⟨a, b, ha, hb, hk⟩ := withOperand2_next h
    injection hk with hk
    exact .inl ⟨rfl, _, hk.symm, .inl ⟨t1, t2, a, b, ha, hb, .inr (.inr ⟨rfl, rfl⟩)⟩⟩
  | pushl t1 =>
    obtain ⟨a, ha, hk⟩ := withOperand_next h
    injection hk with hk
    exact .inl ⟨rfl, _, hk.symm, .inr ⟨t1, a, ha, .inl ⟨rfl, rfl⟩⟩⟩
  | popl t1 =>
    obtain ⟨a, ha, hk⟩ := withOperand_next h
    injection hk with hk
    exact .inl ⟨rfl, _, hk.symm, .inr ⟨t1, a, ha, .inr ⟨rfl, rfl⟩⟩⟩
  | jmp t1 =>
    injection h with h
    exact .inr (.inl ⟨rfl, _, h.symm, .inl ⟨.always, t1, rfl, by simp⟩⟩)
  | je t1 =>
    injection h with h
    exact .inr (.inl ⟨rfl, _, h.symm, .inl ⟨.equal, t1, rfl, by simp⟩⟩)
  | jne t1 =>
    injection h with h
    exact .inr (.inl ⟨rfl, _, h.symm, .inl ⟨.notEqual, t1, rfl, by simp⟩⟩)
  | jl t1 =>
    injection h with h
    exact .inr (.inl ⟨rfl, _, h.symm, .inl ⟨.less, t1, rfl, by simp⟩⟩)
  | jg t1 =>
    injection h with h
    exact .inr (.inl ⟨rfl, _, h.symm, .inl ⟨.greater, t1, rfl, by simp⟩⟩)
  | call t1 =>
    injection h with h
    exact .inr (.inl ⟨rfl, _, h.symm, .inr (.inl ⟨t1, rfl, rfl⟩)⟩)
  | ret =>
    injection h with h
    exact .inr (.inl ⟨rfl, _, h.symm, .inr (.inr (.inl ⟨rfl, rfl⟩))⟩)
  | endMarker =>
    injection h with h
    exact .inr (.inl ⟨rfl, _, h.symm, .inr (.inr (.inr ⟨rfl, rfl⟩))⟩)
  | skip =>
    injection h with h
    exact .inr (.inr ⟨rfl, h.symm⟩)

/-- No instruction but END touches parameters, store or stop flags. -/
theorem exec_sameSetup {i : Instr} {s t : State} (h : exec i s = .next t) (hi : i ≠ .endMarker) :
    sameSetup s t := by
  rcases exec_next h with ⟨-, p, rfl, hp⟩ | ⟨-, p, rfl, hp⟩ | ⟨-, rfl⟩
  · refine sameSetup_trans (t := p.1) ?_ (sameSetup_refl _)
    rcases hp with ⟨t1, t2, a, b, -, -, ⟨-, rfl⟩ | ⟨-, rfl⟩ | ⟨-, rfl⟩⟩ | ⟨t1, a, -, ⟨-, rfl⟩ | ⟨-, rfl⟩⟩
    · exact s.moveExec_sameSetup a b
    · exact s.addExec_sameSetup a b
    · exact s.compareExec_sameSetup a b
    · exact s.pushExec_sameSetup a
    · exact s.popExec_sameSetup a
  · refine sameSetup_trans (t := p.1) ?_ (sameSetup_refl _)
    rcases hp with ⟨m, t1, rfl, -⟩ | ⟨t1, -, rfl⟩ | ⟨-, rfl⟩ | ⟨e, -⟩
    · exact s.jumpExec_sameSetup m t1
    · exact s.callExec_sameSetup t1
    · exact s.retExec_sameSetup
    · exact absurd e hi
  · exact sameSetup_refl s

/-! ### One step, and several -/

theorem step_of_fetchOk {s : State} (h1 : s.halted = false) (h2 : s.fault = .none)
    (h3 : fetchOk s.cfg s.pc.toInt = true) : step s = exec (decodeLine s.fetchLine) s := by
  unfold step
  rw [h1, h2, h3]
  rfl

theorem step_of_not_fetchOk {s : State} (h1 : s.halted = false) (h2 : s.fault = .none)
    (h3 : fetchOk s.cfg s.pc.toInt = false) : step s = .next s.takeFetchFault := by
  unfold step
  rw [h1, h2, h3]
  rfl

/-- Everything a step can do when it answers a next state. -/
theorem step_next {s t : State} (h : step s = .next t) : s.halted = false ∧ s.fault = .none ∧
    ((fetchOk s.cfg s.pc.toInt = true ∧ exec (decodeLine s.fetchLine) s = .next t) ∨
      (fetchOk s.cfg s.pc.toInt = false ∧ t = s.takeFetchFault)) := by
  unfold step at h
  split at h
  · cases h
  · split at h
    · cases h
    · rename_i h1 _ h2
      split at h
      · exact ⟨by simpa using h1, h2, .inl ⟨‹_›, h⟩⟩
      · rename_i h3
        injection h with h
        exact ⟨by simpa using h1, h2, .inr ⟨Bool.eq_false_iff.2 h3, h.symm⟩⟩

theorem run_succ_of_step (M : Host.Core) (n : Nat) (s t : M.State) (h : M.step s = .next t) :
    M.run (n + 1) s = M.run n t := by
  simp only [Host.Core.run, h]

/-- A run of one step more. -/
theorem run_succ {s t : State} (h : step s = .next t) (n : Nat) :
    Host.Core.run Sys2Proof.core (n + 1) s = Host.Core.run Sys2Proof.core n t :=
  run_succ_of_step Sys2Proof.core n s t h

theorem run_zero (s : State) : Host.Core.run Sys2Proof.core 0 s = .next s := rfl

end Sys2Proof.Machine
end

