-- ==== Sys2Proof/Tests/Slice0.lean ====
section
/-! SUPPORT. Tests from the spec's vectors (95_test_vectors.md, V<n> and P<n>), and for every statement
with hypotheses a concrete input that meets them. -/

open Sys2Proof Sys2Proof.Machine

namespace Sys2Proof.Tests

/-! ### The spec's test configuration (TC), launched with some lines and some values -/

def launched (lines : List String) (ps : List Preset) : State :=
  match launch Config.tc [] (lines.map String.toList) ps with
  | .ok s => s
  | .error _ => State.reset

/-- Why the launch was refused, if it was. -/
def launchRefusal (lines : List String) (ps : List Preset) : Option LaunchRefusal :=
  match launch Config.tc [] (lines.map String.toList) ps with
  | .ok _ => none
  | .error e => some e

/-- The state after one step, if there is one. -/
def after (lines : List String) (ps : List Preset) : Option State :=
  match step (launched lines ps) with
  | .next t => some t
  | .fault _ => none
  | .refused _ => none

/-! ### WellFormed: one ill-formed term for each check -/

theorem test_wf_accepts : Instr.wf (.movl "8(%EBP)".toList "%EAX".toList) = true := by decide
theorem test_wf_no_space : Instr.wf (.pushl "% EAX".toList) = false := by decide
theorem test_wf_no_newline : Instr.wf (.jmp ['.', 'a', '\n']) = false := by decide
theorem test_wf_ascii_only : Instr.wf (.call ['.', 'é']) = false := by decide
theorem test_wf_no_gap : Instr.wf (.addl [] "%EAX".toList) = false := by decide
theorem test_loadable_no_double_space : Line.loadable "MOVL  $1".toList = false := by decide
theorem test_loadable_no_end_space : Line.loadable "RET ".toList = false := by decide
theorem test_loadable_no_front_space : Line.loadable " RET".toList = false := by decide
theorem test_config_no_empty_memory : ¬ Config.wf { Config.tc with memWords := 0 } := by decide
theorem test_config_no_empty_store : ¬ Config.wf { Config.tc with istoreSlots := 0 } := by decide
theorem test_config_sigil : ¬ Config.wf { Config.tc with labelSigil := '%' } := by decide
theorem test_memory_no_zero_byte : ¬ Memory.wf [(4, 0#8)] := by decide
theorem test_memory_rising : ¬ Memory.wf [(4, 1#8), (4, 2#8)] := by decide

/-! ### Decoding: words written out field by field from R77 (op, k1, r1, v1, k2, r2, v2, 0) -/

theorem test_decode_movl : decodeTableWord 80
    0b0001_10_000_00000000000000000000000000001010_01_000_00000000000000000000000000000000_00 =
    some (.movl "$10".toList "%EAX".toList) := by decide
theorem test_decode_addl : decodeTableWord 80
    0b0010_10_000_11111111111111111111111111111111_01_010_00000000000000000000000000000000_00 =
    some (.addl "$-1".toList "%ECX".toList) := by decide
theorem test_decode_pushl : decodeTableWord 80
    0b0011_11_011_00000000000000000000000000001000_00_000_00000000000000000000000000000000_00 =
    some (.pushl "8(%ESP)".toList) := by decide
theorem test_decode_popl : decodeTableWord 80
    0b0100_01_101_00000000000000000000000000000000_00_000_00000000000000000000000000000000_00 =
    some (.popl "%EIP".toList) := by decide
theorem test_decode_cmpl : decodeTableWord 80
    0b0101_10_000_00000000000000000000000000000010_11_100_11111111111111111111111111111100_00 =
    some (.cmpl "$2".toList "-4(%EBP)".toList) := by decide
theorem test_decode_jmp : decodeTableWord 80
    0b0110_01_000_00000000000000000000000000000001_00_000_00000000000000000000000000000000_00 =
    some (.jmp ".1".toList) := by decide
theorem test_decode_je : decodeTableWord 80
    0b0111_01_000_00000000000000000000000000000111_00_000_00000000000000000000000000000000_00 =
    some (.je ".7".toList) := by decide
theorem test_decode_jne : decodeTableWord 80
    0b1000_00_000_00000000000000000000000000000000_00_000_00000000000000000000000000000000_00 =
    some (.jne []) := by decide
theorem test_decode_jl : decodeTableWord 80
    0b1001_01_000_00000000000000000000000000000010_00_000_00000000000000000000000000000000_00 =
    some (.jl ".2".toList) := by decide
theorem test_decode_jg : decodeTableWord 80
    0b1010_01_000_11111111111111111111111111111111_00_000_00000000000000000000000000000000_00 =
    some (.jg ".4294967295".toList) := by decide
theorem test_decode_call : decodeTableWord 80
    0b1011_01_000_00000000000000000000000000000001_00_000_00000000000000000000000000000000_00 =
    some (.call ".1".toList) := by decide
theorem test_decode_ret : decodeTableWord 80
    0b1100_00_000_00000000000000000000000000000000_00_000_00000000000000000000000000000000_00 =
    some .ret := by decide
theorem test_decode_end : decodeTableWord 80
    0b1101_00_000_00000000000000000000000000000000_00_000_00000000000000000000000000000000_00 =
    some .endMarker := by decide
theorem test_decode_skip : decodeTableWord 80
    0b0000_01_000_00000000000000000000000000000011_00_000_00000000000000000000000000000000_00 =
    some .skip := by decide
/-- Program P5's and P6's words of the spec. -/
theorem test_pack_programs :
    packLine '.' (fun _ => 2#32) "MOVL %EAX $5".toList = some 0x14000000004000000014#80 ∧
    packLine '.' (fun _ => 2#32) "MOVL $9 4096(%EAX)".toList = some 0x1800000004E000004000#80 ∧
    packLine '.' (fun _ => 2#32) "JL .neg".toList = some 0x94000000010000000000#80 ∧
    packLine '.' (fun _ => 2#32) "MOVL %EIP %EAX".toList = some 0x16800000002000000000#80 := by decide
/-- A placed word is what the next step runs (V5), and one more table row. -/
theorem test_withFetchWord :
    ((State.reset.withFetchWord 80 0x18000000052000000000).fetchLine = "MOVL $10 %EAX".toList) ∧
    ((State.reset.withFetchWord 80 0xD0000000000000000000).fetchLine = "END".toList) := by decide

/-! ### Operand tokens (V1, V2, V3, V21) -/

theorem test_tokens_valid :
    decodeOperand "%EBP".toList = .operand (.register .ebp) ∧
    decodeOperand "$-7".toList = .operand (.constant (-7#32)) ∧
    decodeOperand "(%EAX)".toList = .operand (.memory .eax 0#32) ∧
    decodeOperand "-4(%ESP)".toList = .operand (.memory .esp (-4#32)) ∧
    decodeOperand "+0(%EIP)".toList = .operand (.memory .eip 0#32) := by decide
theorem test_tokens_invalid :
    ∀ t ∈ ["%EBX", "%eax", "EAX", "%AX", "%EAX,", "(%EBX)", "4(EAX)", "4(%eax)", "()", "", "5"],
      decodeOperand t.toList = .operand .invalid := by decide
theorem test_tokens_malformed :
    (∀ t ∈ ["$", "$abc", "$1x", "$2147483648", "$(%EAX)"],
      decodeOperand t.toList = .malformed .constantShape) ∧
    (∀ t ∈ ["x(%EAX)", "4(%EAX)y", "((%EAX))", "4(%EAX", "99999999999(%EAX)"],
      decodeOperand t.toList = .malformed .parenthesisShape) := by decide

/-! ### Instructions, one step each -/

/-- V22: the source is read before the destination is written. -/
theorem test_movl_overlap : (after ["MOVL (%EAX) %EAX"] [.reg .eax 8#32, .word 2 55#32]).map
    (fun t => (t.reg .eax, t.pc, t.res)) = some (55#32, 4#32, some .ok) := by decide
/-- V22: a misaligned address reaches the word it lies in; a bad one changes nothing. -/
theorem test_movl_addresses :
    (after ["MOVL $7 6(%EAX)"] []).map (fun t => (t.memRead 4, t.res)) = some (7#32, some .ok) ∧
    (after ["MOVL $7 1021(%EAX)"] []).map (fun t => (t.mem, t.pc, t.res)) =
      some ([], 4#32, some .memError) := by decide
/-- V23. -/
theorem test_addl_wraps : (after ["ADDL $1 %EAX"] [.reg .eax 2147483647#32, .cmp 9#32]).map
    (fun t => (t.reg .eax, t.cmp)) = some (-2147483648#32, 9#32) := by decide
/-- V23. -/
theorem test_addl_memory : (after ["ADDL $5 (%EDX)"] [.reg .edx 16#32, .word 4 10#32]).map
    (fun t => (t.memRead 16, t.reg .edx)) = some (15#32, 16#32) := by decide
/-- V24: the old `ESP` is pushed. -/
theorem test_pushl_esp : (after ["PUSHL %ESP"] []).map (fun t => (t.reg .esp, t.memRead 1020)) =
    some (1020#32, 1024#32) := by decide
/-- V24: a misaligned stack, and a full one. -/
theorem test_pushl_edges :
    (after ["PUSHL %EAX"] [.reg .esp 1022#32, .reg .eax 7#32]).map
      (fun t => (t.reg .esp, t.memRead 1016)) = some (1018#32, 7#32) ∧
    (after ["PUSHL %EAX"] [.reg .esp 0#32]).map (fun t => (t.reg .esp, t.res)) =
      some (0#32, some .memError) := by decide
/-- V25: the destination is written, then 4 is added to `ESP`. -/
theorem test_popl_esp : (after ["POPL %ESP"] [.reg .esp 1020#32, .word 255 40#32]).map
    (fun t => t.reg .esp) = some 44#32 := by decide
/-- V25: the destination's address uses the old `ESP`. -/
theorem test_popl_memory :
    (after ["POPL 4(%ESP)"] [.reg .esp 1016#32, .word 254 5#32, .word 255 6#32]).map
      (fun t => (t.reg .esp, t.memRead 1020)) = some (1020#32, 5#32) := by decide
/-- V26: second minus first, wrapped. -/
theorem test_cmpl_wraps : (after ["CMPL $1 %EAX"] [.reg .eax (-2147483648#32)]).map
    (fun t => (t.cmp, t.reg .eax)) = some (2147483647#32, -2147483648#32) := by decide
/-- V26: both operands memory. -/
theorem test_cmpl_error : (after ["CMPL (%EAX) (%EDX)"] [.cmp 9#32]).map (fun t => (t.cmp, t.res)) =
    some (9#32, some .instrError) := by decide

/-- The store of V27 with one of the five jumps. -/
def jumpTo (jump : String) (c : Word) : Option (Word × Option Res) :=
  (after [jump, "MOVL $1 %EAX", ".e", "END"] [.cmp c]).map (fun t => (t.pc, t.res))

/-- V27, a row for each jump; no operand at all, and the wrong case. -/
theorem test_jmp : jumpTo "JMP .e" (-1#32) = some (12#32, some .ok) ∧
    jumpTo "JMP" 0#32 = some (4#32, some .pcError) ∧
    jumpTo "JMP .E" 0#32 = some (4#32, some .pcError) := by decide
theorem test_je : jumpTo "JE .e" 0#32 = some (12#32, some .ok) ∧
    jumpTo "JE .e" 7#32 = some (4#32, some .ok) := by decide
theorem test_jne : jumpTo "JNE .e" (-2147483648#32) = some (12#32, some .ok) ∧
    jumpTo "JNE .e" 0#32 = some (4#32, some .ok) := by decide
theorem test_jl : jumpTo "JL .e" (-2147483648#32) = some (12#32, some .ok) ∧
    jumpTo "JL .e" 0#32 = some (4#32, some .ok) ∧ jumpTo "JL .zz" 1#32 = some (4#32, some .pcError) := by
  decide
theorem test_jg : jumpTo "JG .e" 2147483647#32 = some (12#32, some .ok) ∧
    jumpTo "JG .e" 0#32 = some (4#32, some .ok) := by decide

/-- The store of V8, at its CALL. -/
def callStore (esp : Word) : List String × List Preset :=
  (["", "CALL .f", "END", "", ".f", "RET"], [.reg .eip 4#32, .reg .esp esp])

/-- V28: pushed, and misaligned. -/
theorem test_call :
    (after (callStore 1024#32).1 (callStore 1024#32).2).map
      (fun t => (t.pc, t.reg .esp, t.memRead 1020, t.res)) = some (20#32, 1020#32, 8#32, some .ok) ∧
    (after (callStore 1022#32).1 (callStore 1022#32).2).map
      (fun t => (t.pc, t.reg .esp, t.memRead 1016)) = some (20#32, 1018#32, 8#32) := by decide
/-- V28: no room, and a bad label that leaves `pc`. -/
theorem test_call_fails :
    (after (callStore 0#32).1 (callStore 0#32).2).map (fun t => (t.pc, t.reg .esp, t.res)) =
      some (20#32, 0#32, some .memError) ∧
    (after ["CALL .g", "END"] []).map (fun t => (t.pc, t.reg .esp, t.res)) =
      some (0#32, 1024#32, some .pcError) := by decide

/-- The store of V29 with the word given on the stack. -/
def retTo (v : Word) : Option (Word × Word × Option Res) :=
  (after ("RET" :: List.replicate 8 "MOVL $1 %EAX" ++ ["END"]) [.reg .esp 1020#32, .word 255 v]).map
    (fun t => (t.pc, t.reg .esp, t.res))

/-- V29: inside, at the boundary, one past it, negative. -/
theorem test_ret : retTo 6#32 = some (6#32, 1024#32, some .ok) ∧
    retTo 43#32 = some (43#32, 1024#32, some .ok) ∧
    retTo 44#32 = some (44#32, 1024#32, some .pcError) ∧
    retTo (-1#32) = some (-1#32, 1024#32, some .pcError) := by decide
/-- V29: the pop fails. -/
theorem test_ret_empty_stack : (after ["RET"] []).map (fun t => (t.pc, t.reg .esp, t.res)) =
    some (0#32, 1024#32, some .memError) := by decide
/-- V30. -/
theorem test_end : (after ["END x"] []).map (fun t => (t.halted, t.pc)) = some (true, 0#32) := by decide
theorem test_skip : (after ["FOO %EAX"] [.reg .eax 3#32]).map (fun t => (t.pc, t.reg .eax, t.res)) =
    some (4#32, 3#32, some .ok) := by decide
/-- V30: a fetch outside the store. -/
theorem test_fetch_fault : (after [] [.reg .eip (-1#32)]).map (fun t => (t.fault, t.pc, t.halted)) =
    some (.fetchFault, -1#32, false) := by decide

/-! ### Inputs that meet the hypotheses of the statements, each clause at its boundary -/

theorem test_hyp_DecodeOfEncodeIsIdentity :
    Instr.wf (.cmpl "$1".toList "8(%EBP)".toList) = true ∧ Instr.wf (.ret) = true := by decide

/-- With text after the third piece, and without. -/
theorem test_hyp_TokenizeTakesFirstThreePieces : 
    (∀ p ∈ [['R', 'E', 'T'], ['$', '1'], ['x']], p ≠ [] ∧ ∀ x ∈ p, x ≠ ' ') ∧
    (([] : Line) = [] ∨ ([] : Line).head? = some ' ') ∧
    ([' ', 'x', ' ', 'y'] = [] ∨ [' ', 'x', ' ', 'y'].head? = some ' ') := by simp

theorem test_hyp_FirstTokenPicksInstruction : ∀ m ∈ ["MOVL", "ADDL", "PUSHL", "POPL", "CMPL", "JMP", "JE",
    "JNE", "JL", "JG", "CALL", "RET", "END", "", "movl", ".e"],
    tokenize (m.toList ++ " .a %EAX".toList) = (if m = "" then (".a".toList, "%EAX".toList, []) else
      (m.toList, ".a".toList, "%EAX".toList)) := by decide

/-- The conditions on a literal, and its value. -/
abbrev literal (sign : List Char) (ds : String) (v : Nat) : Prop :=
  (sign = [] ∨ sign = ['-'] ∨ sign = ['+']) ∧ ds.toList ≠ [] ∧ ds.toList.all Char.isDigit = true ∧
    digitsValue ds.toList = v

/-- The extreme values, one beyond each, each sign; and the empty text, which is no literal. -/
theorem test_hyp_ConstantTokenValue :
    (literal [] "2147483647" 2147483647 ∧ literal ['-'] "2147483648" 2147483648 ∧
      literal ['+'] "0" 0 ∧ literal [] "2147483648" 2147483648 ∧
      literal ['-'] "2147483649" 2147483649) ∧
    ¬ ∃ sign ds : List Char, (sign = [] ∨ sign = ['-'] ∨ sign = ['+']) ∧ ds ≠ [] ∧
      (∀ c ∈ ds, c.isDigit = true) ∧ [] = sign ++ ds := by
  refine ⟨by decide, ?_⟩
  rintro ⟨sign, ds, -, hne, -, he⟩
  exact hne (List.append_eq_nil_iff.1 he.symm).2

theorem test_hyp_PackOfUnpackIsIdentity :
    unpackLine '.' 0x140000000073FFFFFFF0#80 = some "MOVL %EAX -4(%EBP)".toList ∧
    (packedOp 0x140000000073FFFFFFF0#80).toNat < 14 ∧
    unpackLine '.' 0xD0000000000000000000#80 = some "END".toList ∧
    (packedOp 0xD0000000000000000000#80).toNat < 14 := by decide

/-- A store with two labels, one defined. -/
def labelStore : State := launched ["JMP .e", "JE .f", ".e", "END"] []
def labelIds (t : Token) : Word := if t = ".e".toList then 1#32 else if t = ".f".toList then 2#32 else 9#32
def labelSlots : List (BitVec 80) := [0x64000000008000000000#80, 0x74000000010000000000#80,
  0x04000000008000000000#80, 0xD0000000000000000000#80]

theorem test_hyp_PackedResolverAgrees : ∀ p ∈ [("JMP .e", ".e", 0x64000000008000000000#80),
    ("JE .f", ".f", 0x74000000010000000000#80)],
    (∀ m ∈ mnemonics, m.head? ≠ some labelStore.cfg.labelSigil) ∧
    (∀ a ∈ p.2.1.toList :: labelStore.store, ∀ b ∈ p.2.1.toList :: labelStore.store,
      isLabelToken labelStore.cfg.labelSigil a = true → isLabelToken labelStore.cfg.labelSigil b = true →
      labelIds a = labelIds b → a = b) ∧
    labelStore.store.map (packLine labelStore.cfg.labelSigil labelIds) = labelSlots.map some ∧
    (∃ j ∈ [Instr.jmp p.2.1.toList, .je p.2.1.toList, .jne p.2.1.toList, .jl p.2.1.toList,
      .jg p.2.1.toList, .call p.2.1.toList], decodeLine p.1.toList = j) ∧
    packLine labelStore.cfg.labelSigil labelIds p.1.toList = some p.2.2 := by decide

theorem test_hyp_PackedReservedWords :
    packedZero 1#80 ≠ 0#2 ∧
    (let w := 0x37000000000000000000#80
     (packedOp w).toNat ∈ [1, 2, 3, 4, 5] ∧ (packedK1 w).toNat ∈ [1, 3] ∧ (packedR1 w).toNat = 6) ∧
    (let w := 0x5800000000FC00000000#80
     (packedOp w).toNat ∈ [1, 2, 5] ∧ (packedK2 w).toNat ∈ [1, 3] ∧ (packedR2 w).toNat = 7) ∧
    (14 ≤ (packedOp 0xE0000000000000000000#80).toNat ∧
      (0xE0000000000000000000#80).extractLsb' 0 76 = 0#76) ∧
    (14 ≤ (packedOp 0xF0000000000000000000#80).toNat ∧
      (0xF0000000000000000000#80).extractLsb' 0 76 = 0#76) := by decide

/-- The machine with a RET in slot 0 and `pc` at an address. -/
def retAt (p : Word) : State := launched ["RET"] [.reg .eip p]

/-- The first and the last address of the store. -/
theorem test_hyp_StepRunsDecodedInstruction :
    ((retAt 0#32).halted = false ∧ (retAt 0#32).fault = .none ∧ 0 ≤ (retAt 0#32).pc.toInt ∧
      (retAt 0#32).pc.toInt < 4 * ((retAt 0#32).cfg.istoreSlots : Int)) ∧
    ((retAt 255#32).halted = false ∧ (retAt 255#32).fault = .none ∧ 0 ≤ (retAt 255#32).pc.toInt ∧
      (retAt 255#32).pc.toInt < 4 * ((retAt 255#32).cfg.istoreSlots : Int)) := by decide

/-- One below the first address, one above the last. -/
theorem test_hyp_FetchOutsideStoreFaults :
    ((retAt (-1#32)).halted = false ∧ (retAt (-1#32)).fault = .none ∧ (retAt (-1#32)).pc.toInt < 0) ∧
    ((retAt 256#32).halted = false ∧ (retAt 256#32).fault = .none ∧
      4 * ((retAt 256#32).cfg.istoreSlots : Int) ≤ (retAt 256#32).pc.toInt) := by decide

theorem test_hyp_StoppedMachineTakesNoStep :
    State.reset.halt.halted = true ∧ State.reset.takeFetchFault.halted = false ∧
    State.reset.takeFetchFault.fault = .fetchFault := by decide

/-- The first address past the program and the last of the store. -/
theorem test_hyp_UnpopulatedSlotIsSkipped :
    ((retAt 4#32).halted = false ∧ (retAt 4#32).fault = .none ∧
      4 * ((retAt 4#32).icount : Int) ≤ (retAt 4#32).pc.toInt ∧
      (retAt 4#32).pc.toInt < 4 * ((retAt 4#32).cfg.istoreSlots : Int)) ∧
    ((retAt 255#32).halted = false ∧ (retAt 255#32).fault = .none ∧
      4 * ((retAt 255#32).icount : Int) ≤ (retAt 255#32).pc.toInt ∧
      (retAt 255#32).pc.toInt < 4 * ((retAt 255#32).cfg.istoreSlots : Int)) := by decide

theorem test_hyp_UnknownMnemonicIsSkipped :
    let s := launched ["FOO %EAX"] []
    s.halted = false ∧ s.fault = .none ∧ 0 ≤ s.pc.toInt ∧
      s.pc.toInt < 4 * (s.cfg.istoreSlots : Int) ∧ (tokenize s.fetchLine).1 ∉ mnemonics := by decide

theorem test_hyp_OnlyEndHaltsAndOnlyFetchFaults :
    (∃ t, step (launched ["END"] []) = .next t ∧ t.halted = true) ∧
    (∃ t, step (launched [] [.reg .eip 256#32]) = .next t ∧ t.fault = .fetchFault) :=
  ⟨⟨_, rfl, rfl⟩, ⟨_, rfl, rfl⟩⟩

/-- The token decodes to the operand. -/
abbrev reads (t : String) (a : Operand) : Prop := decodeOperand t.toList = .operand a

/-- Each clause of the MOVL statement: kinds, addresses one byte beyond 1020 and below 0, destination
`EIP`, destination the last word. -/
theorem test_hyp_MovlFollowsItsRule :
    (reads "%ECX" (.register .ecx) ∧ reads "$5" (.constant 5#32) ∧
      moveAllowed (.register .ecx) (.constant 5#32) = false) ∧
    (reads "1021(%EAX)" (.memory .eax 1021#32) ∧
      moveAllowed (.memory .eax 1021#32) (.register .ecx) = true ∧
      State.reset.value (.memory .eax 1021#32) = none) ∧
    (reads "-1(%EAX)" (.memory .eax (-1#32)) ∧
      moveAllowed (.constant 5#32) (.memory .eax (-1#32)) = true ∧
      State.reset.destOk (.memory .eax (-1#32)) = false) ∧
    (reads "%EIP" (.register .eip) ∧ moveAllowed (.constant 5#32) (.register .eip) = true ∧
      State.reset.value (.constant 5#32) = some 5#32) ∧
    (reads "1020(%EAX)" (.memory .eax 1020#32) ∧
      moveAllowed (.register .ecx) (.memory .eax 1020#32) = true ∧
      State.reset.value (.register .ecx) = some 0#32 ∧
      State.reset.destOk (.memory .eax 1020#32) = true) := by decide

theorem test_hyp_AddlFollowsItsRule :
    (reads "1020(%EAX)" (.memory .eax 1020#32) ∧
      moveAllowed (.memory .eax 1020#32) (.memory .eax 1020#32) = false) ∧
    (reads "$5" (.constant 5#32) ∧ reads "1021(%EAX)" (.memory .eax 1021#32) ∧
      moveAllowed (.constant 5#32) (.memory .eax 1021#32) = true ∧
      State.reset.value (.memory .eax 1021#32) = none) ∧
    (reads "%EIP" (.register .eip) ∧ moveAllowed (.memory .eax 1020#32) (.register .eip) = true ∧
      State.reset.value (.memory .eax 1020#32) = some 0#32 ∧
      State.reset.value (.register .eip) = some 0#32) ∧
    (moveAllowed (.constant 5#32) (.memory .eax 1020#32) = true ∧
      State.reset.value (.constant 5#32) = some 5#32) := by decide

/-- `ESP` at reset is 1024, so the push reaches the last word; at 0 there is no room. -/
theorem test_hyp_PushlFollowsItsRule :
    (reads "" .invalid ∧ pushAllowed .invalid = false) ∧
    (reads "1021(%EAX)" (.memory .eax 1021#32) ∧ pushAllowed (.memory .eax 1021#32) = true ∧
      State.reset.value (.memory .eax 1021#32) = none) ∧
    (reads "%ECX" (.register .ecx) ∧ pushAllowed (.register .ecx) = true ∧ validData Config.tc
      (((launched [] [.reg .esp 0#32]).reg .esp).toInt - 4) = false) ∧
    (State.reset.value (.register .ecx) = some 0#32 ∧
      validData State.reset.cfg ((State.reset.reg .esp).toInt - 4) = true) := by decide

/-- The machine with `ESP` at the last word. -/
def topOfStack : State := launched [] [.reg .esp 1020#32]

/-- The last word, one byte beyond, and a bad destination. -/
theorem test_hyp_PoplFollowsItsRule :
    (reads "$5" (.constant 5#32) ∧ popAllowed (.constant 5#32) = false) ∧
    (reads "%ESP" (.register .esp) ∧ popAllowed (.register .esp) = true ∧
      validData State.reset.cfg (State.reset.reg .esp).toInt = false) ∧
    (reads "1021(%EAX)" (.memory .eax 1021#32) ∧ popAllowed (.memory .eax 1021#32) = true ∧
      topOfStack.destOk (.memory .eax 1021#32) = false) ∧
    (reads "1020(%EAX)" (.memory .eax 1020#32) ∧ topOfStack.destOk (.memory .eax 1020#32) = true ∧
      validData topOfStack.cfg (topOfStack.reg .esp).toInt = true) := by decide

theorem test_hyp_CmplFollowsItsRule :
    (reads "1020(%EAX)" (.memory .eax 1020#32) ∧
      compareAllowed (.memory .eax 1020#32) (.memory .eax 1020#32) = false) ∧
    (reads "$5" (.constant 5#32) ∧ reads "1021(%EAX)" (.memory .eax 1021#32) ∧
      compareAllowed (.constant 5#32) (.memory .eax 1021#32) = true ∧
      State.reset.value (.memory .eax 1021#32) = none) ∧
    (compareAllowed (.memory .eax 1020#32) (.constant 5#32) = true ∧
      State.reset.value (.memory .eax 1020#32) = some 0#32 ∧
      State.reset.value (.constant 5#32) = some 5#32) := by decide

theorem test_hyp_KindMatricesDecideInstrError :
    (reads "$5" (.constant 5#32) ∧ reads "%ECX" (.register .ecx)) ∧ ∃ t, exec (.popl "$5".toList) State.reset = .next t ∧
      t.res = some .instrError := ⟨by decide, _, rfl, rfl⟩

theorem test_hyp_DataInstructionsShareTheirFrame :
    (∃ t, isData (.pushl []) = true ∧ exec (.pushl []) State.reset = .next t ∧
      t.res = some .instrError ∧ Res.instrError ≠ .ok) ∧
    (∃ t, isData (.movl "$8".toList "%EIP".toList) = true ∧
      exec (.movl "$8".toList "%EIP".toList) State.reset = .next t ∧
      t.pc ≠ nextSlot State.reset.pc) :=
  ⟨⟨_, rfl, rfl, rfl, by decide⟩, ⟨_, rfl, rfl, by decide⟩⟩

theorem test_hyp_OnlyCmplWritesCmp :
    ∃ t, exec (.cmpl "$1".toList "$2".toList) State.reset = .next t ∧ t.cmp ≠ State.reset.cmp :=
  ⟨_, rfl, by decide⟩

/-- Both sides of the boundary, 1020 and 1021, with a label that resolves for the CALL clause. -/
theorem test_hyp_MemErrorExactlyOutOfRange :
    (reads "$5" (.constant 5#32) ∧ reads "%ECX" (.register .ecx) ∧
      reads "1020(%EAX)" (.memory .eax 1020#32) ∧ reads "1021(%EAX)" (.memory .eax 1021#32)) ∧
    (0 ≤ (State.reset.reg .eax).toInt + (1020#32).toInt ∧ (State.reset.reg .eax).toInt +
      (1020#32).toInt ≤ ((State.reset.cfg.memWords : Int) - 1) * 4) ∧
    ¬ ((State.reset.reg .eax).toInt + (1021#32).toInt ≤ ((State.reset.cfg.memWords : Int) - 1) * 4) ∧
    labelStore.resolveLabel ".e".toList ≠ none := by decide

theorem test_hyp_MalformedOperandIsRefused :
    decodeOperand "$".toList = .malformed .constantShape ∧
    (decodeOperand "$1".toList = .operand (.constant 1#32) ∧
      decodeOperand "4(%EAX".toList = .malformed .parenthesisShape) ∧
    (∃ r, exec (.pushl "$".toList) State.reset = .refused r) := ⟨by decide, by decide, ⟨_, rfl⟩⟩

theorem test_hyp_AdmittedProgramIsNeverRefused :
    let s := launched ["MOVL $1 8(%EBP)", "RET", "FOO $$", ".e"] []
    s.admittedStore ∧ s.running := by unfold State.admittedStore State.running; decide

/-- Two addresses of one word, and two of different words, the last among them. -/
theorem test_hyp_WordReadsBack : ∀ p ∈ [((0 : Int), (3 : Int)), (1020, 1016), (1020, 1020)],
    validData State.reset.cfg p.1 = true ∧ validData State.reset.cfg p.2 = true := by decide

/-- Both misalignments of an address that both tokens reach. -/
theorem test_hyp_MisalignedStoreReachesItsWord :
    decodeOperand "$7".toList = .operand (.constant 7#32) ∧
    (∀ o ∈ [("1017(%EAX)", 1017#32), ("1019(%EAX)", 1019#32)],
      decodeOperand o.1.toList = .operand (.memory .eax o.2) ∧
      validData State.reset.cfg (State.reset.ea .eax o.2) = true ∧
      State.reset.ea .eax 1016#32 =
        State.reset.ea .eax o.2 - State.reset.ea .eax o.2 % 4) ∧
    decodeOperand "1016(%EAX)".toList = .operand (.memory .eax 1016#32) ∧
    (∃ t, exec (.movl "$7".toList "1019(%EAX)".toList) State.reset = .next t) ∧
    (∃ t, exec (.movl "$7".toList "1016(%EAX)".toList) State.reset = .next t) :=
  ⟨by decide, by decide, by decide, ⟨_, rfl⟩, ⟨_, rfl⟩⟩

theorem test_hyp_DumpIsLittleEndian : (launched [] [.word 1 0x11223344#32]).mem =
    [(4, 0x44#8), (5, 0x33#8), (6, 0x22#8), (7, 0x11#8)] ∧ 3 < 4 := by decide

theorem test_hyp_StoreIsReadOnly : ∃ t, step (launched ["MOVL $1 (%EAX)"] []) = .next t := ⟨_, rfl⟩

theorem test_hyp_DataInstructionsIgnoreTheStore :
    ∃ t, isData (.pushl "%EAX".toList) = true ∧ exec (.pushl "%EAX".toList) State.reset = .next t :=
  ⟨_, rfl, rfl⟩

/-- A label on the first line and on the last: 4 and ICOUNT * 4; one without a line; no sigil. -/
theorem test_hyp_ResolveLabel :
    let s := launched [".a", "RET", ".b"] []
    s.resolveLabel ".a".toList = some 4 ∧ s.resolveLabel ".b".toList = some 12 ∧
    s.resolveLabel ".c".toList = none ∧ s.resolveLabel "RET".toList = none := by decide

/-- Each condition on both sides of 0 is in `test_je` to `test_jg`. -/
theorem test_hyp_JumpsFollowTheirRules :
    labelStore.resolveLabel ".e".toList = some 12 ∧ labelStore.resolveLabel ".f".toList = none := by
  decide

theorem test_hyp_Call :
    (labelStore.resolveLabel ".e".toList = some 12 ∧
      validData labelStore.cfg ((labelStore.reg .esp).toInt - 4) = true) ∧
    (let s := launched [".e"] [.reg .esp 3#32]
     s.resolveLabel ".e".toList = some 4 ∧ validData s.cfg ((s.reg .esp).toInt - 4) = false) ∧
    labelStore.resolveLabel ".f".toList = none := by decide

theorem test_hyp_RetFollowsItsRule :
    validData State.reset.cfg (State.reset.reg .esp).toInt = false ∧
    validData topOfStack.cfg (topOfStack.reg .esp).toInt = true := by decide

theorem test_hyp_CallThenReturnComesBack :
    let s := launched ["CALL .f", "END", ".f", "RET"] []
    (s.Inv ∧ s.running) ∧ 0 ≤ s.pc.toInt ∧ s.pc.toInt < 4 * (s.cfg.istoreSlots : Int) ∧
    decodeLine s.fetchLine = .call ".f".toList ∧
    s.resolveLabel ".f".toList = some (4 * ((3 : Nat) : Int)) ∧ 3 < s.cfg.istoreSlots ∧
    decodeLine (s.line 3) = .ret ∧ validData s.cfg ((s.reg .esp).toInt - 4) = true := by
  unfold State.Inv State.running; decide

theorem test_hyp_PushThenPopRestores : Reg.eip ≠ .esp ∧ Reg.eax ≠ .esp ∧
    validData State.reset.cfg ((State.reset.reg .esp).toInt - 4) = true := by decide

theorem test_hyp_ProgramCounterAsOperand : Reg.esp ≠ .eip ∧
    decodeOperand "$8".toList = .operand (.constant 8#32) := by decide

/-- V28's call of a missing label. -/
theorem test_hyp_LivelockLastsForever : (launched ["CALL .g", "END"] []).livelock := ⟨_, rfl, rfl⟩

/-- From the first slot past the program. -/
theorem test_hyp_RunningOffTheProgramFaults :
    (retAt 4#32).Inv ∧ (retAt 4#32).running ∧ 4 * ((retAt 4#32).icount : Int) ≤ (retAt 4#32).pc.toInt ∧
      (retAt 4#32).pc.toInt < 4 * ((retAt 4#32).cfg.istoreSlots : Int) := by
  unfold State.Inv State.running; decide
/-- From the last address of the store. -/
theorem test_hyp_RunningOffTheProgramFaults_last :
    (retAt 255#32).Inv ∧ (retAt 255#32).running ∧
      4 * ((retAt 255#32).icount : Int) ≤ (retAt 255#32).pc.toInt ∧
      (retAt 255#32).pc.toInt < 4 * ((retAt 255#32).cfg.istoreSlots : Int) := by
  unfold State.Inv State.running; decide

/-- Two states that differ in `res`; a step, a fault and a refusal. -/
theorem test_hyp_ResultOutputIsNeverRead :
    (∀ s : State, sameButRes s (s.setRes .memError)) ∧
    (∃ t, step (launched ["RET"] []) = .next t) ∧ (∃ f, step State.reset.halt = .fault f) ∧
    (∃ r, step { State.reset with store := ["PUSHL $".toList] } = .refused r) :=
  ⟨fun _ => rfl, ⟨_, rfl⟩, ⟨_, rfl⟩, ⟨_, rfl⟩⟩

theorem test_hyp_StepKeepsTheInvariant :
    let s := launched ["PUSHL $1"] []
    s.Inv ∧ ∃ t, step s = .next t ∧ t.mem ≠ [] :=
  ⟨by unfold State.Inv; decide, ⟨_, rfl, by decide⟩⟩

/-- Values of each kind set at launch, the last word among them. -/
theorem test_hyp_LaunchMeetsTheInvariant :
    Config.tc.wf ∧ Memory.wf [(3, 1#8), (1023, 9#8)] ∧ Memory.within Config.tc [(3, 1#8), (1023, 9#8)] ∧
    (launch Config.tc [(3, 1#8), (1023, 9#8)] ["RET".toList]
      [.word 255 7#32, .reg .eax 1#32, .cmp 2#32]).isOk = true := by decide

theorem test_hyp_ResetValues : 63 < Config.tc.istoreSlots ∧
    (State.reset.loadProgram ["RET".toList]).isOk = true := by decide

/-- R73: the program is refused before it runs, also where the run would jump over the line; a malformed
token that no executor decodes is harmless. -/
theorem test_launch_refuses_program :
    launchRefusal ["JMP .e", "PUSHL $", ".e", "END"] [] = some (.malformedOperand 1) ∧
    launchRefusal ["MOVL $1 4(%EAX"] [] = some (.malformedOperand 0) ∧
    launchRefusal ["PUSHL $1 $", "FOO $ ((", "JMP $x", "END $"] [] = none := by decide

/-- Each clause: a malformed line after an admitted one; an admitted program with the last word and with
the word after it. -/
theorem test_hyp_LaunchRefusesMalformedPrograms :
    (1 < Config.tc.istoreSlots ∧ (decodeLine "PUSHL $".toList).admitted = false ∧
      (decodeLine "JMP .e".toList).admitted = true) ∧
    ((∀ l ∈ ["PUSHL $1 $".toList].take Config.tc.istoreSlots, (decodeLine l).admitted = true) ∧
      255 < Config.tc.memWords ∧ Config.tc.memWords ≤ 256) ∧
    launchRefusal ["PUSHL $1 $"] [.word 255 1#32] = none ∧
    launchRefusal ["PUSHL $1 $"] [.word 256 1#32] = some (.noSuchWord 256) := by decide

theorem test_hyp_LaunchedMachineIsNeverRefused : ∃ s,
    launch Config.tc [] ["JMP .e".toList, ".e".toList, "END".toList] [] = .ok s ∧ s.store ≠ [] :=
  ⟨_, rfl, by decide⟩

end Sys2Proof.Tests
end

/-! ## The scope of the model: the invariant of the machine, and the status output `res`

`State.Inv` splits into what `sameSetup` keeps (parameters, store, stop flags) and `memInv` (memory).
Only END and the fetch fault change a stop flag; for them the invariant is shown directly. -/

namespace Sys2Proof.Machine

/-! ### Memory stays canonical under the executors that control the flow, and under presets -/

theorem State.compareExec_memInv {s : State} (h : memInv s) (a b : Operand) :
    memInv (s.compareExec a b).1 := by
  obtain ⟨-, k⟩ | ⟨-, -, k⟩ | ⟨v, w, -, -, -, k⟩ := s.compareExec_cases a b <;> rw [k] <;> exact h

theorem State.jumpExec_memInv {s : State} (h : memInv s) (m : Cond) (t : Token) :
    memInv (s.jumpExec m t).1 := by
  obtain k | k | ⟨a, -, -, k⟩ := s.jumpExec_cases m t <;> rw [k] <;> exact h

theorem State.callExec_memInv {s : State} (h : memInv s) (t : Token) :
    memInv (s.callExec t).1 := by
  obtain k | ⟨a, -, k⟩ := s.callExec_cases t
  · rw [k]; exact h
  · rw [k]; exact State.pushExec_memInv (s := s.advance) h _

theorem State.retExec_memInv {s : State} (h : memInv s) : memInv s.retExec.1 := by
  rw [s.retExec_fst]; exact State.popExec_memInv h _

theorem dataAnswer_memInv {i : Instr} {s : State} {p : State × Res} (h : memInv s)
    (hp : dataAnswer i s p) : memInv p.1 := by
  rcases hp with ⟨t1, t2, a, b, -, -, ⟨-, rfl⟩ | ⟨-, rfl⟩ | ⟨-, rfl⟩⟩ | ⟨t1, a, -, ⟨-, rfl⟩ | ⟨-, rfl⟩⟩
  · exact State.moveExec_memInv h a b
  · exact State.addExec_memInv h a b
  · exact State.compareExec_memInv h a b
  · exact State.pushExec_memInv h a
  · exact State.popExec_memInv h a

theorem controlAnswer_memInv {i : Instr} {s : State} {p : State × Res} (h : memInv s)
    (hp : controlAnswer i s p) : memInv p.1 := by
  rcases hp with ⟨m, t1, rfl, -⟩ | ⟨t1, -, rfl⟩ | ⟨-, rfl⟩ | ⟨-, rfl⟩
  · exact State.jumpExec_memInv h m t1
  · exact State.callExec_memInv h t1
  · exact State.retExec_memInv h
  · exact h

theorem exec_memInv {i : Instr} {s t : State} (h : memInv s) (he : exec i s = .next t) :
    memInv t := by
  rcases exec_next he with ⟨-, p, rfl, hp⟩ | ⟨-, p, rfl, hp⟩ | ⟨-, rfl⟩
  · exact dataAnswer_memInv h hp
  · exact controlAnswer_memInv h hp
  · exact h

theorem State.preset_memInv {s t : State} {p : Preset} (h : memInv s) (hp : s.preset p = .ok t) :
    memInv t := by
  cases p with
  | reg r v => injection hp with hp; subst hp; exact h
  | cmp v => injection hp with hp; subst hp; exact h
  | word k v =>
    simp only [State.preset] at hp
    split at hp
    · rename_i hk
      injection hp with hp
      subst hp
      exact ⟨writeWord_wf h.1 k v, writeWord_within h.2 hk v⟩
    · cases hp

/-! ### The invariant -/

theorem memInv_of_inv {s : State} (h : s.Inv) : memInv s := by
  obtain ⟨-, -, hwf, hin, -⟩ := h
  exact ⟨hwf, hin⟩

theorem inv_of_sameSetup {s t : State} (h : s.Inv) (hs : sameSetup s t)
    (hm : memInv t) : t.Inv := by
  obtain ⟨hcfg, hstore, -, -, hflags⟩ := h
  obtain ⟨ec, es, eh, ef⟩ := hs
  obtain ⟨hwf, hin⟩ := hm
  exact ⟨ec ▸ hcfg, by rw [es, ec]; exact hstore, hwf, hin, by rw [eh, ef]; exact hflags⟩

/-- END halts a machine, so it needs one that has not faulted. -/
theorem exec_endMarker_inv {s t : State} (h : s.Inv) (hf : s.fault = .none)
    (he : exec .endMarker s = .next t) : t.Inv := by
  obtain ⟨hcfg, hstore, hwf, hin, -⟩ := h
  injection he with he
  subst he
  exact ⟨hcfg, hstore, hwf, hin, fun _ => hf⟩

theorem exec_inv {s t : State} {i : Instr} (h : s.Inv) (hf : s.fault = .none)
    (he : exec i s = .next t) : t.Inv := by
  by_cases hi : i = .endMarker
  · subst hi
    exact exec_endMarker_inv h hf he
  · exact inv_of_sameSetup h (exec_sameSetup he hi) (exec_memInv (memInv_of_inv h) he)

/-- The fetch fault faults a machine, so it needs one that has not halted. -/
theorem State.takeFetchFault_inv {s : State} (h : s.Inv) (hh : s.halted = false) :
    s.takeFetchFault.Inv := by
  obtain ⟨hcfg, hstore, hwf, hin, -⟩ := h
  exact ⟨hcfg, hstore, hwf, hin, fun halt => by simp [hh] at halt⟩

theorem step_inv {s t : State} (h : s.Inv) (hs : step s = .next t) : t.Inv := by
  obtain ⟨hh, hf, ⟨-, he⟩ | ⟨-, rfl⟩⟩ := step_next hs
  · exact exec_inv h hf he
  · exact State.takeFetchFault_inv h hh

theorem State.resetWith_inv {c : Config} {m : Memory} (hc : c.wf) (hwf : Memory.wf m)
    (hin : Memory.within c m) : (State.resetWith c m).Inv :=
  ⟨hc, Nat.zero_le _, hwf, hin, fun _ => rfl⟩

/-- Filling the store keeps the invariant, since the loader drops the lines that do not fit (R61). -/
theorem State.load_inv {s : State} (h : s.Inv) (program : List Line) :
    State.Inv { s with store := program.take s.cfg.istoreSlots } := by
  obtain ⟨hcfg, -, hwf, hin, hflags⟩ := h
  exact ⟨hcfg, List.length_take_le _ _, hwf, hin, hflags⟩

theorem State.preset_inv {s t : State} {p : Preset} (h : s.Inv) (hp : s.preset p = .ok t) : t.Inv :=
  inv_of_sameSetup h (State.preset_sameSetup hp) (State.preset_memInv (memInv_of_inv h) hp)

theorem State.presets_inv {s t : State} {ps : List Preset} (h : s.Inv)
    (hps : s.presets ps = .ok t) : t.Inv := by
  induction ps generalizing s with
  | nil => injection hps with hps; exact hps ▸ h
  | cons p ps ih =>
    simp only [State.presets] at hps
    split at hps
    · rename_i u hu
      exact ih (State.preset_inv h hu) hps
    · cases hps

/-- Settles O49: an instruction keeps the setup and the memory invariant, END and the fetch fault each
set their own stop flag in a machine where the other is clear. -/
theorem stepKeepsTheInvariant : Obligations.StepKeepsTheInvariant :=
  fun _ _ h hs => step_inv h hs

/-- Settles O50: the reset state is `State.resetWith` of legal parameters and empty memory. -/
theorem resetMeetsTheInvariant : Obligations.ResetMeetsTheInvariant :=
  State.resetWith_inv (by decide) (by decide) (by decide)

/-- Settles O51: reset has the invariant, and the loader and every preset keep it. -/
theorem launchMeetsTheInvariant : Obligations.LaunchMeetsTheInvariant := by
  intro c m program ps s hc hwf hin hl
  obtain ⟨-, hps⟩ := launch_ok hl
  exact State.presets_inv (State.load_inv (State.resetWith_inv hc hwf hin) program) hps

/-! ### The status output

Every operation that an executor uses commutes with replacing `res`. An executor's answer therefore
carries the replaced `res` along, and `setRes` at the end of the instruction overwrites it. -/

/-- The state with another status output. -/
def State.withRes (s : State) (o : Option Res) : State := { s with res := o }

/-- An executor's answer with another status output in its state. -/
def answerWithRes (o : Option Res) (p : State × Res) : State × Res := (p.1.withRes o, p.2)

theorem sameButRes_iff (s t : State) : sameButRes s t ↔ ∃ o, t = s.withRes o :=
  ⟨fun h => ⟨t.res, h⟩, fun ⟨_, h⟩ => by subst h; rfl⟩

section
variable (s : State) (o : Option Res)

@[simp] theorem State.withRes_cfg : (s.withRes o).cfg = s.cfg := (rfl)
@[simp] theorem State.withRes_cmp : (s.withRes o).cmp = s.cmp := (rfl)
@[simp] theorem State.reg_withRes (r : Reg) : (s.withRes o).reg r = s.reg r := (rfl)
@[simp] theorem State.pc_withRes : (s.withRes o).pc = s.pc := (rfl)
@[simp] theorem State.memRead_withRes (a : Int) : (s.withRes o).memRead a = s.memRead a := (rfl)
@[simp] theorem State.fetchLine_withRes : (s.withRes o).fetchLine = s.fetchLine := (rfl)

@[simp] theorem State.advance_withRes : (s.withRes o).advance = s.advance.withRes o := (rfl)

@[simp] theorem State.resolveLabel_withRes (t : Token) :
    (s.withRes o).resolveLabel t = s.resolveLabel t := State.resolveLabel_congr rfl rfl t
@[simp] theorem State.validPc_withRes (a : Int) : (s.withRes o).validPc a = s.validPc a :=
  State.validPc_congr rfl a

@[simp] theorem State.value_withRes (a : Operand) : (s.withRes o).value a = s.value a := by
  cases a <;> rfl
@[simp] theorem State.destOk_withRes (d : Operand) : (s.withRes o).destOk d = s.destOk d := by
  cases d <;> rfl
@[simp] theorem State.writeOperand_withRes (d : Operand) (v : Word) :
    (s.withRes o).writeOperand d v = (s.writeOperand d v).withRes o := by
  cases d <;> rfl

@[simp] theorem answerWithRes_fst (p : State × Res) : (answerWithRes o p).1 = p.1.withRes o := (rfl)
@[simp] theorem answerWithRes_snd (p : State × Res) : (answerWithRes o p).2 = p.2 := (rfl)

@[simp] theorem finishAdvance_answerWithRes (p : State × Res) :
    finishAdvance (answerWithRes o p) = finishAdvance p := (rfl)
@[simp] theorem finishInPlace_answerWithRes (p : State × Res) :
    finishInPlace (answerWithRes o p) = finishInPlace p := (rfl)

@[simp] theorem State.moveExec_withRes (a b : Operand) :
    (s.withRes o).moveExec a b = answerWithRes o (s.moveExec a b) := by
  simp only [State.moveExec, State.value_withRes, State.destOk_withRes, State.writeOperand_withRes]
  split
  · rfl
  · split
    · split <;> rfl
    · rfl

@[simp] theorem State.addExec_withRes (a b : Operand) :
    (s.withRes o).addExec a b = answerWithRes o (s.addExec a b) := by
  simp only [State.addExec, State.value_withRes, State.writeOperand_withRes]
  split
  · rfl
  · split <;> rfl

@[simp] theorem State.pushExec_withRes (a : Operand) :
    (s.withRes o).pushExec a = answerWithRes o (s.pushExec a) := by
  simp only [State.pushExec, State.value_withRes, State.reg_withRes, State.withRes_cfg]
  split
  · rfl
  · split
    · split <;> rfl
    · rfl

@[simp] theorem State.popExec_withRes (d : Operand) :
    (s.withRes o).popExec d = answerWithRes o (s.popExec d) := by
  simp only [State.popExec, State.reg_withRes, State.withRes_cfg, State.destOk_withRes,
    State.memRead_withRes, State.writeOperand_withRes]
  split
  · rfl
  · split <;> rfl

@[simp] theorem State.compareExec_withRes (a b : Operand) :
    (s.withRes o).compareExec a b = answerWithRes o (s.compareExec a b) := by
  simp only [State.compareExec, State.value_withRes]
  split
  · rfl
  · split <;> rfl

@[simp] theorem State.jumpExec_withRes (m : Cond) (t : Token) :
    (s.withRes o).jumpExec m t = answerWithRes o (s.jumpExec m t) := by
  simp only [State.jumpExec, State.resolveLabel_withRes, State.validPc_withRes, State.withRes_cmp]
  split
  · rfl
  · split
    · split <;> rfl
    · rfl

@[simp] theorem State.callExec_withRes (t : Token) :
    (s.withRes o).callExec t = answerWithRes o (s.callExec t) := by
  simp only [State.callExec, State.resolveLabel_withRes, State.validPc_withRes,
    State.advance_withRes, State.pushExec_withRes]
  split
  · rfl
  · split <;> rfl

@[simp] theorem State.retExec_withRes :
    (s.withRes o).retExec = answerWithRes o s.retExec := by
  simp only [State.retExec, State.popExec_withRes, answerWithRes_fst, answerWithRes_snd,
    State.pc_withRes, State.validPc_withRes]
  split
  · split <;> rfl
  · rfl

/-- Every instruction writes `res`, so the old one is lost. -/
theorem exec_withRes (i : Instr) : exec i (s.withRes o) = exec i s := by
  cases i with
  | movl t1 t2 => simp [exec, execMovl]
  | addl t1 t2 => simp [exec, execAddl]
  | pushl t1 => simp [exec, execPushl]
  | popl t1 => simp [exec, execPopl]
  | cmpl t1 t2 => simp [exec, execCmpl]
  | jmp t1 => simp [exec, execJmp]
  | je t1 => simp [exec, execJe]
  | jne t1 => simp [exec, execJne]
  | jl t1 => simp [exec, execJl]
  | jg t1 => simp [exec, execJg]
  | call t1 => simp [exec, execCall]
  | ret => simp [exec, execRet]
  | endMarker => rfl
  | skip => rfl

/-- A step forgets the old `res`, but for the fetch fault, which carries it along. -/
theorem step_withRes : step (s.withRes o) = step s ∨
    (step s = .next s.takeFetchFault ∧
      step (s.withRes o) = .next (s.takeFetchFault.withRes o)) := by
  cases hh : s.halted with
  | true => left; simp [step, State.withRes, hh]
  | false =>
    cases hf : s.fault with
    | fetchFault => left; simp [step, State.withRes, hh, hf]
    | none =>
      cases hok : fetchOk s.cfg s.pc.toInt with
      | true =>
        left
        rw [step_of_fetchOk hh hf hok, step_of_fetchOk (s := s.withRes o) hh hf hok,
          exec_withRes, State.fetchLine_withRes]
      | false =>
        exact .inr ⟨step_of_not_fetchOk hh hf hok,
          step_of_not_fetchOk (s := s.withRes o) hh hf hok⟩

end

/-- Settles O48: the two steps answer the same outcome, or both are the fetch fault, which keeps `res`. -/
theorem resultOutputIsNeverRead : Obligations.ResultOutputIsNeverRead := by
  intro s s' h
  obtain ⟨o, rfl⟩ := (sameButRes_iff s s').1 h
  obtain e | ⟨e, e'⟩ := step_withRes s o
  · rw [e]
    exact ⟨fun t ht => ⟨t, ht, rfl⟩, fun _ hf => hf, fun _ hr => hr⟩
  · rw [e, e']
    refine ⟨fun t ht => ?_, nofun, nofun⟩
    injection ht with ht
    subst ht
    exact ⟨_, rfl, (sameButRes_iff _ _).2 ⟨o, rfl⟩⟩

end Sys2Proof.Machine

/-! ## State: the step, the fetch, reset, and the comparison result

A step is read off `step_next` and `step_of_fetchOk`; an instruction off `exec_next`, which names the
executor behind it. What is missing there is said here once: the fetched line, the skipped line, who
writes `cmp`, and that the data executors do not look at the instruction store. -/

namespace Sys2Proof.Machine

/-! ### The step and the fetch -/

theorem step_of_halted {s : State} (h : s.halted = true) : step s = .fault .halted := by
  simp [step, h]

theorem step_of_faulted {s : State} (hh : s.halted = false) (hf : s.fault = .fetchFault) :
    step s = .fault .fetchFault := by
  simp [step, hh, hf]

theorem exec_endMarker (s : State) : exec .endMarker s = .next (s.halt.setRes .ok) := rfl

theorem exec_skip (s : State) : exec .skip s = .next (s.advance.setRes .ok) := rfl

/-- The fetched line in terms of the populated lines (R24, R31, R151). -/
theorem State.fetchLine_eq {s : State} (h : 0 ≤ s.pc.toInt) :
    s.fetchLine = (s.store[s.pc.toInt.toNat / 4]?).getD [] := by
  have hi : (idx s.pc.toInt).toNat = s.pc.toInt.toNat / 4 := by
    simp only [idx]
    omega
  rw [State.fetchLine, State.line, hi, List.getD_eq_getElem?_getD]

theorem State.fetchLine_unpopulated {s : State} (h : 4 * (s.icount : Int) ≤ s.pc.toInt) :
    s.fetchLine = [] := by
  have hlen : s.store.length ≤ s.pc.toInt.toNat / 4 := by
    simp only [State.icount] at h
    omega
  rw [State.fetchLine_eq (by omega), List.getElem?_eq_none hlen]
  rfl

/-- The empty line of an unpopulated slot is skipped (R31, R71, R154). -/
theorem step_of_unpopulated {s : State} (hs : s.running) (hlo : 4 * (s.icount : Int) ≤ s.pc.toInt)
    (hhi : s.pc.toInt < 4 * (s.cfg.istoreSlots : Int)) :
    step s = .next (s.advance.setRes .ok) := by
  obtain ⟨hh, hf⟩ := hs
  have hdecode : decodeLine s.fetchLine = .skip := by
    rw [State.fetchLine_unpopulated hlo]
    rfl
  rw [step_of_fetchOk hh hf ((fetchOk_iff s).2 ⟨by omega, hhi⟩), hdecode, exec_skip]

/-- Settles O13: the fetch succeeds, and the slot it reads is that of `State.fetchLine_eq`. -/
theorem stepRunsDecodedInstruction : Obligations.StepRunsDecodedInstruction := by
  intro s hh hf hlo hhi
  rw [step_of_fetchOk hh hf ((fetchOk_iff s).2 ⟨hlo, hhi⟩), State.fetchLine_eq hlo]

/-- Settles O15: `step` looks at `halted` first, then at the fault flag. -/
theorem stoppedMachineTakesNoStep : Obligations.StoppedMachineTakesNoStep :=
  fun _ => ⟨step_of_halted, step_of_faulted⟩

/-- Settles O16: the slot holds the empty line, which decodes to a skip. -/
theorem unpopulatedSlotIsSkipped : Obligations.UnpopulatedSlotIsSkipped := by
  intro s hh hf hlo hhi
  exact ⟨_, step_of_unpopulated ⟨hh, hf⟩ hlo hhi, onlyPc_advance s .ok⟩

/-- Settles O19: END sets `halted` alone, every other instruction keeps both stop flags, and the fetch
fault sets the fault flag alone. -/
theorem onlyEndHaltsAndOnlyFetchFaults : Obligations.OnlyEndHaltsAndOnlyFetchFaults := by
  intro s t hs
  obtain ⟨hh, hf, ⟨hok, he⟩ | ⟨hok, rfl⟩⟩ := step_next hs
  · by_cases hi : decodeLine s.fetchLine = .endMarker
    · rw [hi, exec_endMarker] at he
      injection he with he
      subst he
      exact ⟨fun _ => ⟨hi, hok⟩, fun hfault => by simp [hf] at hfault⟩
    · obtain ⟨-, -, eh, ef⟩ := exec_sameSetup he hi
      exact ⟨fun halt => by simp [eh, hh] at halt, fun hfault => by simp [ef, hf] at hfault⟩
  · exact ⟨fun halt => by simp [hh] at halt, fun _ => ⟨hok, hh⟩⟩

/-! ### Running off the program -/

theorem State.setPc_self (s : State) : s.setPc s.pc = s := s.setReg_self .eip

/-- A skip, written so that several in a row collapse to one: only `pc` and `res` are other. -/
theorem State.advance_setRes_eq (s : State) (r : Res) :
    s.advance.setRes r = (s.setPc (nextSlot s.pc)).withRes (some r) := (rfl)

theorem State.setPc_withRes_setPc_withRes (s : State) (p q : Word) (o o' : Option Res) :
    (((s.setPc p).withRes o).setPc q).withRes o' = (s.setPc q).withRes o' := (rfl)

theorem run_one_of_fetch_fails {s : State} (hs : s.running)
    (h : 4 * (s.cfg.istoreSlots : Int) ≤ s.pc.toInt) :
    Host.Core.run Sys2Proof.core 1 s = .next s.takeFetchFault := by
  obtain ⟨hh, hf⟩ := hs
  have hok : fetchOk s.cfg s.pc.toInt = false := by
    rw [Bool.eq_false_iff, Ne, fetchOk_iff]
    omega
  rw [run_succ (step_of_not_fetchOk hh hf hok), run_zero]

/-- With `n` unpopulated slots left in the store, `n` steps skip them and one more faults. -/
theorem run_off_the_program (n : Nat) (s : State) (hs : s.running)
    (hwords : s.cfg.istoreSlots ≤ 2 ^ 29 - 1) (hlo : 4 * (s.icount : Int) ≤ s.pc.toInt)
    (hn : s.pc.toInt / 4 + n = s.cfg.istoreSlots) :
    ∃ p o, Host.Core.run Sys2Proof.core (n + 1) s = .next ((s.setPc p).withRes o).takeFetchFault ∧
      p.toInt = s.pc.toInt + 4 * n := by
  induction n generalizing s with
  | zero =>
    refine ⟨s.pc, s.res, ?_, by simp⟩
    rw [s.setPc_self]
    exact run_one_of_fetch_fails hs (by omega)
  | succ n ih =>
    have hstep := step_of_unpopulated hs hlo (by omega)
    have hnext : (nextSlot s.pc).toInt = s.pc.toInt + 4 := nextSlot_toInt (by omega)
    rw [s.advance_setRes_eq] at hstep
    have hpc : ((s.setPc (nextSlot s.pc)).withRes (some .ok)).pc.toInt = s.pc.toInt + 4 := by
      simpa using hnext
    obtain ⟨p, o, hrun, hp⟩ := ih ((s.setPc (nextSlot s.pc)).withRes (some .ok)) hs hwords
      (by rw [hpc]; exact hlo.trans (by omega))
      (by rw [hpc]; show _ = (s.cfg.istoreSlots : Int); omega)
    refine ⟨p, o, ?_, by omega⟩
    rw [run_succ hstep, hrun, s.setPc_withRes_setPc_withRes]

/-- Settles O47: the slots left are unpopulated, so `run_off_the_program` skips them and faults. -/
theorem runningOffTheProgramFaults : Obligations.RunningOffTheProgramFaults := by
  intro s hinv hs hlo hhi
  obtain ⟨⟨-, -, -, hslots, -⟩, -⟩ := hinv
  obtain ⟨p, o, hrun, hp⟩ := run_off_the_program (s.cfg.istoreSlots - s.pc.toInt.toNat / 4) s hs
    hslots hlo (by omega)
  refine ⟨_, hrun, rfl, hs.1, ?_, fun r hr => ?_, rfl, fun _ => rfl⟩
  · rw [State.pc_takeFetchFault, State.pc_withRes, State.pc_setPc]
    omega
  · have hr : r ≠ .eip := by simpa using hr
    simp [hr]

/-! ### Reset and the loader -/

theorem State.line_load {s : State} (program : List Line) {i : Nat} (h : i < s.cfg.istoreSlots) :
    State.line { s with store := program.take s.cfg.istoreSlots } i = program.getD i [] := by
  simp [State.line, List.getD_eq_getElem?_getD, List.getElem?_take_of_lt h]

/-- Settles O52: the reset values are the fields of `State.resetWith`, and `State.loadProgram_ok` says
what the loader adds. -/
theorem resetValues : Obligations.ResetValues := by
  intro c m
  refine ⟨rfl, rfl, rfl, rfl, rfl, rfl, rfl, fun _ => rfl, rfl, rfl, rfl, fun program t ht => ?_⟩
  obtain ⟨-, rfl⟩ := State.loadProgram_ok.1 ht
  refine ⟨rfl, ?_, fun i hi => State.line_load (s := State.resetWith c m) program hi⟩
  simp [State.icount, State.resetWith, Nat.min_comm]

/-! ### The comparison result -/

/-- Settles O25: `State.compareExec_cases`, case by case. -/
theorem cmplFollowsItsRule : Obligations.CmplFollowsItsRule := by
  intro s t1 t2 a b h1 h2
  simp only [exec_cmpl h1 h2]
  obtain ⟨hk, he⟩ | ⟨hk, hbad, he⟩ | ⟨v, w, hk, hv, hw, he⟩ := s.compareExec_cases a b <;> rw [he]
  · exact ⟨fun _ => ⟨_, rfl, onlyPc_advance s _⟩, by simp [hk], by simp [hk]⟩
  · refine ⟨by simp [hk], fun _ _ => ⟨_, rfl, onlyPc_advance s _⟩, fun v w _ hv hw => ?_⟩
    simp [hv, hw] at hbad
  · refine ⟨by simp [hk], by simp [hv, hw], fun v' w' _ hv' hw' => ?_⟩
    obtain rfl : v = v' := Option.some.inj (hv.symm.trans hv')
    obtain rfl : w = w' := Option.some.inj (hw.symm.trans hw')
    obtain ⟨hsetup, hregs, -, hbytes, hpc, hres⟩ := onlyPc_advance (s.setCmp (compareResult v w)) .ok
    exact ⟨_, rfl, hres, hsetup, compareResult_eq v w, hregs, hpc, hbytes⟩

theorem State.moveExec_cmp (s : State) (a b : Operand) : (s.moveExec a b).1.cmp = s.cmp := by
  obtain ⟨-, e⟩ | ⟨-, -, e⟩ | ⟨v, -, -, -, e⟩ := s.moveExec_cases a b <;> simp [e]

theorem State.addExec_cmp (s : State) (a b : Operand) : (s.addExec a b).1.cmp = s.cmp := by
  obtain ⟨-, e⟩ | ⟨-, -, e⟩ | ⟨v, w, -, -, -, e⟩ := s.addExec_cases a b <;> simp [e]

theorem State.pushExec_cmp (s : State) (a : Operand) : (s.pushExec a).1.cmp = s.cmp := by
  obtain ⟨-, e⟩ | ⟨-, -, e⟩ | ⟨v, -, -, -, e⟩ := s.pushExec_cases a <;> simp [e]

theorem State.popExec_cmp (s : State) (a : Operand) : (s.popExec a).1.cmp = s.cmp := by
  obtain ⟨-, e⟩ | ⟨-, -, e⟩ | ⟨-, -, -, e⟩ := s.popExec_cases a <;> simp [e]

theorem State.jumpExec_cmp (s : State) (m : Cond) (t : Token) : (s.jumpExec m t).1.cmp = s.cmp := by
  obtain e | e | ⟨a, -, -, e⟩ := s.jumpExec_cases m t <;> simp [e]

theorem State.callExec_cmp (s : State) (t : Token) : (s.callExec t).1.cmp = s.cmp := by
  obtain e | ⟨a, -, e⟩ := s.callExec_cases t <;> simp [e, State.pushExec_cmp]

theorem State.retExec_cmp (s : State) : s.retExec.1.cmp = s.cmp := by
  rw [s.retExec_fst, State.popExec_cmp]

theorem dataAnswer_cmp {i : Instr} {s : State} {p : State × Res} (hp : dataAnswer i s p) :
    p.1.cmp = s.cmp ∨ ∃ t1 t2, i = .cmpl t1 t2 := by
  rcases hp with ⟨t1, t2, a, b, -, -, ⟨-, rfl⟩ | ⟨-, rfl⟩ | ⟨hi, -⟩⟩ | ⟨t1, a, -, ⟨-, rfl⟩ | ⟨-, rfl⟩⟩
  · exact .inl (s.moveExec_cmp a b)
  · exact .inl (s.addExec_cmp a b)
  · exact .inr ⟨t1, t2, hi⟩
  · exact .inl (s.pushExec_cmp a)
  · exact .inl (s.popExec_cmp a)

theorem controlAnswer_cmp {i : Instr} {s : State} {p : State × Res} (hp : controlAnswer i s p) :
    p.1.cmp = s.cmp := by
  rcases hp with ⟨m, t1, rfl, -⟩ | ⟨t1, -, rfl⟩ | ⟨-, rfl⟩ | ⟨-, rfl⟩
  · exact s.jumpExec_cmp m t1
  · exact s.callExec_cmp t1
  · exact s.retExec_cmp
  · rfl

/-- Settles O28: of the executors behind `exec_next` all but that of CMPL keep `cmp`. -/
theorem onlyCmplWritesCmp : Obligations.OnlyCmplWritesCmp := by
  intro s t i he hne
  rcases exec_next he with ⟨-, p, rfl, hp⟩ | ⟨-, p, rfl, hp⟩ | ⟨-, rfl⟩
  · exact (dataAnswer_cmp hp).resolve_left hne
  · exact absurd (controlAnswer_cmp hp) hne
  · exact absurd rfl hne

/-! ### The program counter as an operand -/

theorem decodeOperand_eip : decodeOperand "%EIP".toList = .operand (.register .eip) :=
  decodeOperand_register .eip

theorem decodeOperand_minus_four : decodeOperand "$-4".toList = .operand (.constant (-4#32)) := by
  decide

theorem nextSlot_eq (p : Word) : nextSlot p = p + 4#32 := addResult_eq p 4#32

theorem State.moveExec_register (s : State) (r rd : Reg) :
    s.moveExec (.register r) (.register rd) = (s.setReg rd (s.reg r), .ok) := (rfl)

theorem State.moveExec_constant (s : State) (v : Word) (rd : Reg) :
    s.moveExec (.constant v) (.register rd) = (s.setReg rd v, .ok) := (rfl)

theorem State.addExec_constant (s : State) (v : Word) (rd : Reg) :
    s.addExec (.constant v) (.register rd) = (s.setReg rd (addResult (s.reg rd) v), .ok) := (rfl)

theorem State.advance_setReg_eip (s : State) (p : Word) :
    (s.setReg .eip p).advance = s.setPc (nextSlot p) := (rfl)

/-- Settles O45: the loop's 4 is added after the write of `EIP`, and the sum with -4 undoes it. -/
theorem programCounterAsOperand : Obligations.ProgramCounterAsOperand := by
  refine ⟨fun s rd hrd => ?_, fun s v t1 h1 => ?_, fun s => ?_⟩
  · rw [exec_movl decodeOperand_eip (decodeOperand_register rd), State.moveExec_register]
    exact ⟨_, rfl, by simp [hrd, State.pc], by simp [State.pc, hrd.symm]⟩
  · rw [exec_movl h1 decodeOperand_eip, State.moveExec_constant]
    exact ⟨_, rfl, by rw [State.advance_setReg_eip, State.pc_setRes, State.pc_setPc]⟩
  · have hpc : nextSlot (addResult (s.reg .eip) (-4#32)) = s.pc := by
      rw [nextSlot_eq, addResult_eq, State.pc]
      bv_omega
    rw [exec_addl decodeOperand_minus_four decodeOperand_eip, State.addExec_constant]
    refine ⟨_, rfl, ?_⟩
    rw [State.advance_setReg_eip, hpc, s.setPc_self]
    rfl

/-! ### The data executors do not look at the instruction store

Each commutes with replacing the store, so its answer carries the replaced store along. -/

/-- The state with another instruction store. -/
def State.withStore (s : State) (lines : List Line) : State := { s with store := lines }

/-- An executor's answer with another instruction store in its state. -/
def answerWithStore (lines : List Line) (p : State × Res) : State × Res :=
  (p.1.withStore lines, p.2)

section
variable (s : State) (lines : List Line)

@[simp] theorem State.withStore_cfg : (s.withStore lines).cfg = s.cfg := (rfl)
@[simp] theorem State.reg_withStore (r : Reg) : (s.withStore lines).reg r = s.reg r := (rfl)
@[simp] theorem State.memRead_withStore (a : Int) :
    (s.withStore lines).memRead a = s.memRead a := (rfl)
@[simp] theorem State.value_withStore (a : Operand) :
    (s.withStore lines).value a = s.value a := by cases a <;> rfl
@[simp] theorem State.destOk_withStore (d : Operand) :
    (s.withStore lines).destOk d = s.destOk d := by cases d <;> rfl
@[simp] theorem State.writeOperand_withStore (d : Operand) (v : Word) :
    (s.withStore lines).writeOperand d v = (s.writeOperand d v).withStore lines := by
  cases d <;> rfl

theorem State.moveExec_withStore (a b : Operand) :
    (s.withStore lines).moveExec a b = answerWithStore lines (s.moveExec a b) := by
  simp only [State.moveExec, State.value_withStore, State.destOk_withStore,
    State.writeOperand_withStore]
  split
  · rfl
  · split
    · split <;> rfl
    · rfl

theorem State.addExec_withStore (a b : Operand) :
    (s.withStore lines).addExec a b = answerWithStore lines (s.addExec a b) := by
  simp only [State.addExec, State.value_withStore, State.writeOperand_withStore]
  split
  · rfl
  · split <;> rfl

theorem State.pushExec_withStore (a : Operand) :
    (s.withStore lines).pushExec a = answerWithStore lines (s.pushExec a) := by
  simp only [State.pushExec, State.value_withStore, State.reg_withStore, State.withStore_cfg]
  split
  · rfl
  · split
    · split <;> rfl
    · rfl

theorem State.popExec_withStore (d : Operand) :
    (s.withStore lines).popExec d = answerWithStore lines (s.popExec d) := by
  simp only [State.popExec, State.reg_withStore, State.withStore_cfg, State.destOk_withStore,
    State.memRead_withStore, State.writeOperand_withStore]
  split
  · rfl
  · split <;> rfl

theorem State.compareExec_withStore (a b : Operand) :
    (s.withStore lines).compareExec a b = answerWithStore lines (s.compareExec a b) := by
  simp only [State.compareExec, State.value_withStore]
  split
  · rfl
  · split <;> rfl

end

theorem dataAnswer_withStore {i : Instr} {s : State} {p : State × Res} (hp : dataAnswer i s p)
    (lines : List Line) : dataAnswer i (s.withStore lines) (answerWithStore lines p) := by
  rcases hp with ⟨t1, t2, a, b, h1, h2, ⟨hi, rfl⟩ | ⟨hi, rfl⟩ | ⟨hi, rfl⟩⟩ |
    ⟨t1, a, h1, ⟨hi, rfl⟩ | ⟨hi, rfl⟩⟩
  · exact .inl ⟨t1, t2, a, b, h1, h2, .inl ⟨hi, (s.moveExec_withStore lines a b).symm⟩⟩
  · exact .inl ⟨t1, t2, a, b, h1, h2, .inr (.inl ⟨hi, (s.addExec_withStore lines a b).symm⟩)⟩
  · exact .inl ⟨t1, t2, a, b, h1, h2, .inr (.inr ⟨hi, (s.compareExec_withStore lines a b).symm⟩)⟩
  · exact .inr ⟨t1, a, h1, .inl ⟨hi, (s.pushExec_withStore lines a).symm⟩⟩
  · exact .inr ⟨t1, a, h1, .inr ⟨hi, (s.popExec_withStore lines a).symm⟩⟩

/-- The converse of `exec_next` for a data instruction: the executor's answer decides the outcome. -/
theorem exec_of_dataAnswer {i : Instr} {s : State} {p : State × Res} (hp : dataAnswer i s p) :
    exec i s = finishAdvance p := by
  rcases hp with ⟨t1, t2, a, b, h1, h2, ⟨rfl, rfl⟩ | ⟨rfl, rfl⟩ | ⟨rfl, rfl⟩⟩ |
    ⟨t1, a, h1, ⟨rfl, rfl⟩ | ⟨rfl, rfl⟩⟩
  · exact exec_movl h1 h2 s
  · exact exec_addl h1 h2 s
  · exact exec_cmpl h1 h2 s
  · exact exec_pushl h1 s
  · exact exec_popl h1 s

/-- Settles O36: the executor behind the instruction answers alike with the other store. -/
theorem dataInstructionsIgnoreTheStore : Obligations.DataInstructionsIgnoreTheStore := by
  intro s t lines i hi he
  rcases exec_next he with ⟨-, p, rfl, hp⟩ | ⟨hno, -⟩ | ⟨rfl, -⟩
  · exact exec_of_dataAnswer (dataAnswer_withStore hp lines)
  · exact absurd hi (by simp [hno])
  · cases hi

end Sys2Proof.Machine

/-! ## Data memory: addresses, words, and the stack instructions

An address is looked at through `validData_iff` (the range of R41) and `idx_toNat` (the word of R42),
an operand through its value; a memory error is then a case of each executor's `_cases` lemma. -/

namespace Sys2Proof.Machine

/-! ### Addresses and words -/

/-- The range of R41. -/
theorem validData_iff {c : Config} {a : Int} :
    validData c a = true ↔ 0 ≤ a ∧ a ≤ ((c.memWords : Int) - 1) * 4 :=
  decide_eq_true_iff

theorem validData_eq_false_iff {c : Config} {a : Int} :
    validData c a = false ↔ ¬ (0 ≤ a ∧ a ≤ ((c.memWords : Int) - 1) * 4) :=
  decide_eq_false_iff_not

theorem idx_toNat {a : Int} (h : 0 ≤ a) : (idx a).toNat = a.toNat / 4 := by
  simp only [idx]
  omega

/-- Two valid addresses reach the same word exactly if they round down alike (R42, R43). -/
theorem idx_toNat_eq_iff {c : Config} {a b : Int} (ha : validData c a = true)
    (hb : validData c b = true) : (idx b).toNat = (idx a).toNat ↔ a / 4 = b / 4 := by
  have hidxA := (validData_idx ha).1
  have hidxB := (validData_idx hb).1
  simp only [idx] at *
  omega

/-- Rounding an address down to its word keeps it valid (R43). -/
theorem validData_roundDown {c : Config} {a : Int} (h : validData c a = true) :
    validData c (a - a % 4) = true := by
  rw [validData_iff] at *
  omega

theorem idx_roundDown (a : Int) : idx (a - a % 4) = idx a := by
  simp only [idx]
  omega

theorem State.memWrite_congr {a b : Int} (h : idx a = idx b) (s : State) (v : Word) :
    s.memWrite a v = s.memWrite b v := by
  simp only [State.memWrite, h]

@[simp] theorem State.memRead_memWrite_same (s : State) (a : Int) (v : Word) :
    (s.memWrite a v).memRead a = v := by
  simp [State.memRead_memWrite]

@[simp] theorem State.memRead_setReg (s : State) (r : Reg) (v : Word) (a : Int) :
    (s.setReg r v).memRead a = s.memRead a := (rfl)
@[simp] theorem State.memRead_advance (s : State) (a : Int) :
    s.advance.memRead a = s.memRead a := (rfl)
@[simp] theorem State.memRead_setRes (s : State) (r : Res) (a : Int) :
    (s.setRes r).memRead a = s.memRead a := (rfl)

theorem sameBytesOutside_memWrite (s : State) {a : Int} (h : validData s.cfg a = true) (v : Word) :
    sameBytesOutside a s (s.memWrite a v) :=
  fun b hb => State.byteAt_memWrite_ne s a (validData_idx h).1 v b hb

/-- Byte `i` of a word, counted from the lowest (R44, D13). -/
theorem extractLsb'_readWord (m : Memory) (k : Nat) {i : Nat} (h : i < 4) :
    (readWord m k).extractLsb' (8 * i) 8 = readByte m (4 * k + i) := by
  unfold readWord
  obtain rfl | rfl | rfl | rfl : i = 0 ∨ i = 1 ∨ i = 2 ∨ i = 3 := by omega
  · exact BitVec.extractLsb'_append_eq_right
  · rw [BitVec.extractLsb'_append_eq_of_le (by decide)]
    exact BitVec.extractLsb'_append_eq_right
  · rw [BitVec.extractLsb'_append_eq_of_le (by decide),
      BitVec.extractLsb'_append_eq_of_le (by decide)]
    exact BitVec.extractLsb'_append_eq_right
  · rw [BitVec.extractLsb'_append_eq_of_le (by decide),
      BitVec.extractLsb'_append_eq_of_le (by decide)]
    exact BitVec.extractLsb'_append_eq_left

/-- Settles O32: the two words are the same one exactly if the quotients are equal. -/
theorem wordReadsBack : Obligations.WordReadsBack := by
  intro s a b v ha hb
  simp only [State.memRead_memWrite, idx_toNat_eq_iff ha hb]

/-- Settles O34: the word at `4 * a` is word `a`. -/
theorem dumpIsLittleEndian : Obligations.DumpIsLittleEndian := by
  intro s a i hi
  have hword : (idx (4 * (a : Int))).toNat = a := by
    simp only [idx]
    omega
  rw [State.memRead, hword, extractLsb'_readWord _ _ hi, State.byteAt]

/-! ### Operands -/

theorem State.ea_eq (s : State) (r : Reg) (o : Word) :
    s.ea r o = (s.reg r).toInt + o.toInt := (rfl)

@[simp] theorem State.value_register (s : State) (r : Reg) :
    s.value (.register r) = some (s.reg r) := (rfl)

@[simp] theorem State.value_constant (s : State) (v : Word) : s.value (.constant v) = some v := (rfl)

/-- A memory operand has no value exactly where its unbounded address is out of range (R41, D16). -/
@[simp] theorem State.value_memory_eq_none_iff (s : State) (r : Reg) (o : Word) :
    s.value (.memory r o) = none ↔ validData s.cfg (s.ea r o) = false := by
  simp [State.value]

/-- Where a destination may be written, its address check is that of its value (R93, R94). -/
theorem State.destOk_eq_false_iff (s : State) {d : Operand} (h : popAllowed d = true) :
    s.destOk d = false ↔ s.value d = none := by
  cases d with
  | register r => simp [State.destOk]
  | memory r o => simp [State.destOk]
  | constant v => cases h
  | invalid => cases h

theorem popAllowed_of_moveAllowed {a b : Operand} (h : moveAllowed a b = true) :
    popAllowed b = true := by
  cases b with
  | register r => rfl
  | memory r o => rfl
  | constant v => cases a <;> cases h
  | invalid => cases a <;> cases h

theorem compareAllowed_of_moveAllowed {a b : Operand} (h : moveAllowed a b = true) :
    compareAllowed a b = true := by
  revert h
  cases a <;> cases b <;> simp [moveAllowed, compareAllowed]

theorem pushAllowed_of_value {s : State} {a : Operand} {v : Word} (h : s.value a = some v) :
    pushAllowed a = true := by
  cases a with
  | register r => rfl
  | memory r o => rfl
  | constant w => rfl
  | invalid => cases h

/-- Settles O20: the address check is the range, and the index of the word is the quotient. -/
theorem operandValue : Obligations.OperandValue := by
  refine fun s => ⟨s.value_register, s.value_constant, fun r o => ?_, rfl⟩
  simp only [State.value, validData_iff, State.ea_eq]
  split
  · rename_i hrange
    rw [State.memRead, idx_toNat hrange.1]
  · rfl

/-! ### The instruction store -/

/-- Settles O35: END and the fetch fault set a flag, every other step has the frame `sameSetup`. -/
theorem storeIsReadOnly : Obligations.StoreIsReadOnly := by
  intro s t hs
  have hkeep : t.cfg = s.cfg ∧ t.store = s.store := by
    obtain ⟨-, -, ⟨-, he⟩ | ⟨-, rfl⟩⟩ := step_next hs
    · by_cases hi : decodeLine s.fetchLine = .endMarker
      · rw [hi, exec_endMarker] at he
        injection he with he
        subst he
        exact ⟨rfl, rfl⟩
      · obtain ⟨hcfg, hstore, -, -⟩ := exec_sameSetup he hi
        exact ⟨hcfg, hstore⟩
    · exact ⟨rfl, rfl⟩
  obtain ⟨hcfg, hstore⟩ := hkeep
  exact ⟨hcfg, hstore, congrArg List.length hstore, State.resolveLabel_congr hcfg hstore⟩

/-! ### A store of a constant -/

theorem State.moveExec_constant_memory (s : State) (v : Word) {r : Reg} {o : Word}
    (h : validData s.cfg (s.ea r o) = true) :
    s.moveExec (.constant v) (.memory r o) = (s.memWrite (s.ea r o) v, .ok) := by
  obtain ⟨hk, -⟩ | ⟨-, hbad, -⟩ | ⟨w, -, hw, -, he⟩ := s.moveExec_cases (.constant v) (.memory r o)
  · cases hk
  · simp [State.destOk, h] at hbad
  · obtain rfl : v = w := Option.some.inj hw
    exact he

/-- Settles O33: both addresses are valid and reach the same word. -/
theorem misalignedStoreReachesItsWord : Obligations.MisalignedStoreReachesItsWord := by
  intro s t u t1 t2 t2' v o o' r h1 h2 h2' hvalid hround ht hu
  have hvalid' : validData s.cfg (s.ea r o') = true := hround ▸ validData_roundDown hvalid
  have hidx : idx (s.ea r o') = idx (s.ea r o) := by rw [hround, idx_roundDown]
  rw [exec_movl h1 h2, s.moveExec_constant_memory v hvalid] at ht
  rw [exec_movl h1 h2', s.moveExec_constant_memory v hvalid', State.memWrite_congr hidx] at hu
  exact Host.Outcome.next.inj (ht.symm.trans hu)

/-! ### PUSHL and POPL -/

/-- Settles O23: `State.pushExec_cases`, case by case. -/
theorem pushlFollowsItsRule : Obligations.PushlFollowsItsRule := by
  intro s t1 a h1
  simp only [exec_pushl h1]
  obtain ⟨hk, he⟩ | ⟨hk, hbad, he⟩ | ⟨v, hk, hv, hn, he⟩ := s.pushExec_cases a <;> rw [he]
  · refine ⟨fun _ => ⟨_, rfl, onlyPc_advance s _⟩, by simp [hk], fun v hv _ => ?_⟩
    simp [pushAllowed_of_value hv] at hk
  · refine ⟨by simp [hk], fun _ _ => ⟨_, rfl, onlyPc_advance s _⟩, fun v hv hn => ?_⟩
    rw [hv, hn] at hbad
    simp at hbad
  · refine ⟨by simp [hk], fun _ hbad => ?_, fun w hw _ => ?_⟩
    · rw [hv, hn] at hbad
      simp at hbad
    · obtain rfl : v = w := Option.some.inj (hv.symm.trans hw)
      refine ⟨_, rfl, rfl, sameSetup_refl s, rfl, fun r hr => ?_, ?_, ?_, by simp,
        sameBytesOutside_memWrite (s.setReg .esp _) hn v⟩
      · have hr : r ≠ .esp ∧ r ≠ .eip := by simpa using hr
        simp [hr]
      · simpa using wrap32_toInt_of_validData hn
      · simp [State.pc]

/-- Settles O24: `State.popExec_cases`, case by case. -/
theorem poplFollowsItsRule : Obligations.PoplFollowsItsRule := by
  intro s t1 a h1
  simp only [exec_popl h1]
  obtain ⟨hk, he⟩ | ⟨hk, hbad, he⟩ | ⟨hk, hn, hd, he⟩ := s.popExec_cases a <;> rw [he]
  · refine ⟨fun _ => ⟨_, rfl, onlyPc_advance s _⟩, by simp [hk], fun rd ha => ?_, fun rd o ha => ?_⟩
    · rw [ha] at hk
      cases hk
    · rw [ha] at hk
      cases hk
  · refine ⟨by simp [hk], fun _ _ => ⟨_, rfl, onlyPc_advance s _⟩, fun rd ha hn => ?_,
      fun rd o _ hn hd => ?_⟩
    · rw [ha, hn] at hbad
      simp [State.destOk] at hbad
    · rw [hn, hd] at hbad
      simp at hbad
  · refine ⟨by simp [hk], fun _ hbad => ?_, fun rd ha _ => ?_, fun rd o ha _ _ => ?_⟩
    · rw [hn, hd] at hbad
      simp at hbad
    · subst ha
      refine ⟨_, rfl, rfl, sameSetup_refl s, rfl, fun _ => rfl, fun r hsp hpc => ?_, ?_, ?_⟩
      · simp [hsp, hpc]
      · simp [eq_comm]
      · simp [State.pc, eq_comm]
    · subst ha
      refine ⟨_, rfl, rfl, sameSetup_refl s, rfl, fun r hr => ?_, by simp, by simp [State.pc],
        by simp, sameBytesOutside_memWrite s hd _⟩
      have hr : r ≠ .esp ∧ r ≠ .eip := by simpa using hr
      simp [hr]

/-! ### Memory errors -/

theorem State.moveExec_memError_iff (s : State) {a b : Operand} (h : moveAllowed a b = true) :
    (s.moveExec a b).2 = .memError ↔ s.value a = none ∨ s.value b = none := by
  rw [← s.destOk_eq_false_iff (popAllowed_of_moveAllowed h)]
  obtain ⟨hk, -⟩ | ⟨-, hbad, he⟩ | ⟨v, -, hv, hd, he⟩ := s.moveExec_cases a b
  · simp [h] at hk
  · simp [he, hbad]
  · simp [he, hv, hd]

theorem State.addExec_memError_iff (s : State) {a b : Operand} (h : moveAllowed a b = true) :
    (s.addExec a b).2 = .memError ↔ s.value a = none ∨ s.value b = none := by
  obtain ⟨hk, -⟩ | ⟨-, hbad, he⟩ | ⟨v, w, -, hv, hw, he⟩ := s.addExec_cases a b
  · simp [h] at hk
  · simp [he, hbad]
  · simp [he, hv, hw]

theorem State.compareExec_memError_iff (s : State) {a b : Operand} (h : compareAllowed a b = true) :
    (s.compareExec a b).2 = .memError ↔ s.value a = none ∨ s.value b = none := by
  obtain ⟨hk, -⟩ | ⟨-, hbad, he⟩ | ⟨v, w, -, hv, hw, he⟩ := s.compareExec_cases a b
  · simp [h] at hk
  · simp [he, hbad]
  · simp [he, hv, hw]

theorem State.pushExec_memError_iff (s : State) {a : Operand} (h : pushAllowed a = true) :
    (s.pushExec a).2 = .memError ↔
      validData s.cfg ((s.reg .esp).toInt - 4) = false ∨ s.value a = none := by
  obtain ⟨hk, -⟩ | ⟨-, hbad, he⟩ | ⟨v, -, hv, hn, he⟩ := s.pushExec_cases a
  · simp [h] at hk
  · simp [he, hbad.symm]
  · simp [he, hv, hn]

theorem State.popExec_memError_iff (s : State) {d : Operand} (h : popAllowed d = true) :
    (s.popExec d).2 = .memError ↔
      validData s.cfg (s.reg .esp).toInt = false ∨ s.value d = none := by
  rw [← s.destOk_eq_false_iff h]
  obtain ⟨hk, -⟩ | ⟨-, hbad, he⟩ | ⟨-, hn, hd, he⟩ := s.popExec_cases d
  · simp [h] at hk
  · simp [he, hbad]
  · simp [he, hn, hd]

/-- A resolved label passes the check of R97, since one past the last populated slot does. -/
theorem State.validPc_of_resolveLabel {s : State} {t : Token} {a : Int}
    (h : s.resolveLabel t = some a) : s.validPc a = true := by
  unfold State.resolveLabel at h
  split at h
  · obtain ⟨i, hi, rfl⟩ := Option.map_eq_some_iff.1 h
    obtain ⟨hlt, -⟩ := List.findIdx?_eq_some_iff_getElem.1 hi
    refine decide_eq_true ?_
    simp only [idx, State.icount]
    omega
  · cases h

/-- CALL to a resolved label answers what its push answers (D26). -/
theorem State.callExec_snd {s : State} {t : Token} (h : s.resolveLabel t ≠ none) :
    (s.callExec t).2 = (s.advance.pushExec (.register .eip)).2 := by
  obtain ⟨a, ha⟩ := Option.ne_none_iff_exists'.1 h
  simp only [State.callExec, ha, State.validPc_of_resolveLabel ha, if_true]

/-- RET answers `MemError` exactly where its pop does (D27): a bad popped address is a `PCError`. -/
theorem State.retExec_memError_iff (s : State) :
    s.retExec.2 = .memError ↔ (s.popExec (.register .eip)).2 = .memError := by
  unfold State.retExec
  simp only [State.raise_eq]
  split
  · rename_i hok
    split <;> simp [hok]
  · rfl

/-! A rule about addresses states its own condition `bad` for the error; the lemmas below ask that it be
what the executors check of operands and stack address. -/

theorem exec_cmpl_memError_iff {t1 t2 : Token} {a b : Operand} (h1 : decodeOperand t1 = .operand a)
    (h2 : decodeOperand t2 = .operand b) (s : State) (hk : compareAllowed a b = true) {bad : Prop}
    (hbad : (s.value a = none ∨ s.value b = none) ↔ bad) :
    ∃ c, exec (.cmpl t1 t2) s = .next c ∧ (c.res = some .memError ↔ bad) :=
  ⟨_, exec_cmpl h1 h2 s, by simp [s.compareExec_memError_iff hk, hbad]⟩

/-- MOVL, ADDL and CMPL on kinds that all three accept err alike. -/
theorem exec_two_memError_iff {t1 t2 : Token} {a b : Operand} (h1 : decodeOperand t1 = .operand a)
    (h2 : decodeOperand t2 = .operand b) (s : State) (hk : moveAllowed a b = true) {bad : Prop}
    (hbad : (s.value a = none ∨ s.value b = none) ↔ bad) :
    ∃ m d c, exec (.movl t1 t2) s = .next m ∧ exec (.addl t1 t2) s = .next d ∧
      exec (.cmpl t1 t2) s = .next c ∧ (m.res = some .memError ↔ bad) ∧
      (d.res = some .memError ↔ bad) ∧ (c.res = some .memError ↔ bad) := by
  obtain ⟨c, hc, hcbad⟩ := exec_cmpl_memError_iff h1 h2 s (compareAllowed_of_moveAllowed hk) hbad
  refine ⟨_, _, c, exec_movl h1 h2 s, exec_addl h1 h2 s, hc, ?_, ?_, hcbad⟩
  · simp [s.moveExec_memError_iff hk, hbad]
  · simp [s.addExec_memError_iff hk, hbad]

theorem exec_pushl_memError_iff {t1 : Token} {a : Operand} (h1 : decodeOperand t1 = .operand a)
    (s : State) (hk : pushAllowed a = true) {bad : Prop}
    (hbad : (validData s.cfg ((s.reg .esp).toInt - 4) = false ∨ s.value a = none) ↔ bad) :
    ∃ p, exec (.pushl t1) s = .next p ∧ (p.res = some .memError ↔ bad) :=
  ⟨_, exec_pushl h1 s, by simp [s.pushExec_memError_iff hk, hbad]⟩

theorem exec_popl_memError_iff {t1 : Token} {d : Operand} (h1 : decodeOperand t1 = .operand d)
    (s : State) (hk : popAllowed d = true) {bad : Prop}
    (hbad : (validData s.cfg (s.reg .esp).toInt = false ∨ s.value d = none) ↔ bad) :
    ∃ q, exec (.popl t1) s = .next q ∧ (q.res = some .memError ↔ bad) :=
  ⟨_, exec_popl h1 s, by simp [s.popExec_memError_iff hk, hbad]⟩

theorem exec_call_memError_iff {s : State} {t1 : Token} (hl : s.resolveLabel t1 ≠ none) :
    ∃ c, exec (.call t1) s = .next c ∧
      (c.res = some .memError ↔ validData s.cfg ((s.reg .esp).toInt - 4) = false) :=
  ⟨_, rfl, by simp [State.callExec_snd hl, s.advance.pushExec_memError_iff (a := .register .eip) rfl]⟩

theorem exec_ret_memError_iff (s : State) : ∃ q, exec .ret s = .next q ∧
    (q.res = some .memError ↔ validData s.cfg (s.reg .esp).toInt = false) :=
  ⟨_, rfl, by simp [s.retExec_memError_iff, s.popExec_memError_iff (d := .register .eip) rfl]⟩

/-- Settles O29: an executor errs where an operand has no value or its stack address is not valid. -/
theorem memErrorExactlyOutOfRange : Obligations.MemErrorExactlyOutOfRange := by
  intro s t1 t2 v o r rd
  simp only [← validData_iff, ← State.ea_eq, Bool.not_eq_true]
  refine ⟨fun h1 h2 => ?_, fun h1 h2 => ?_, fun h1 h2 => ?_, fun h1 => ?_, fun h1 => ?_, fun h1 => ?_,
    exec_call_memError_iff, exec_ret_memError_iff s⟩
  · obtain h1 | h1 := h1
    · exact exec_two_memError_iff h1 h2 s rfl (by simp)
    · exact exec_two_memError_iff h1 h2 s rfl (by simp)
  · exact exec_two_memError_iff h1 h2 s rfl (by simp)
  · exact exec_cmpl_memError_iff h1 h2 s rfl (by simp)
  · obtain h1 | h1 := h1
    · exact exec_pushl_memError_iff h1 s rfl (by simp)
    · exact exec_pushl_memError_iff h1 s rfl (by simp)
  · obtain ⟨p, hp, hpush⟩ := exec_pushl_memError_iff h1 s rfl Iff.rfl
    obtain ⟨q, hq, hpop⟩ := exec_popl_memError_iff h1 s rfl Iff.rfl
    exact ⟨p, q, hp, hq, by simp [hpush, imp_iff_not_or], by simp [hpop, imp_iff_not_or]⟩
  · exact exec_popl_memError_iff h1 s rfl (by simp)

end Sys2Proof.Machine

/-! ## Text: lines, operand tokens and packed words

A line is read piece by piece (`nextPiece`), a token by its rule of R91
(`decodeOperand_cases`), a packed word by its format (`unpackLine_eq_some`). -/

namespace Sys2Proof

/-! ### Lines -/

theorem wf_of_mem_mnemonics : ∀ m ∈ mnemonics, Token.wf m = true := by decide

theorem noSpace_of_mem_mnemonics {m : Token} (h : m ∈ mnemonics) : noSpace m :=
  noSpace_of_wf (wf_of_mem_mnemonics m h)

theorem ne_nil_of_mem_mnemonics : ∀ m ∈ mnemonics, m ≠ [] := by decide

/-- The joined line of a mnemonic and the operand fields of a line decodes to the mnemonic's row. -/
theorem decodeLine_joined {m t1 t2 : Token} (hm : m ∈ mnemonics) (h : Token.pairWf t1 t2 = true) :
    decodeLine (joinTokens m t1 t2) = instrOf m t1 t2 := by
  simp only [Token.pairWf, Bool.and_eq_true, Bool.or_eq_true, bne_iff_ne, beq_iff_eq] at h
  obtain ⟨⟨h1, h2⟩, hgap⟩ := h
  exact decodeLine_joinTokens (noSpace_of_mem_mnemonics hm) (ne_nil_of_mem_mnemonics m hm)
    (noSpace_of_wf h1) (noSpace_of_wf h2) fun e => hgap.resolve_left (not_not_intro e)

theorem decodeLine_joined_single {m t1 : Token} (hm : m ∈ mnemonics) (h : Token.wf t1 = true) :
    decodeLine (joinTokens m t1 []) = instrOf m t1 [] :=
  decodeLine_joined hm (Laws.Loadable.pairWf_single h)

/-- Settles O1: the joined line gives back mnemonic and tokens, and the mnemonic its constructor. -/
theorem decodeOfEncodeIsIdentity : Obligations.DecodeOfEncodeIsIdentity := by
  intro i h
  cases i with
  | movl t1 t2 => exact decodeLine_joined (by decide) h
  | addl t1 t2 => exact decodeLine_joined (by decide) h
  | pushl t1 => exact decodeLine_joined_single (by decide) h
  | popl t1 => exact decodeLine_joined_single (by decide) h
  | cmpl t1 t2 => exact decodeLine_joined (by decide) h
  | jmp t1 => exact decodeLine_joined_single (by decide) h
  | je t1 => exact decodeLine_joined_single (by decide) h
  | jne t1 => exact decodeLine_joined_single (by decide) h
  | jl t1 => exact decodeLine_joined_single (by decide) h
  | jg t1 => exact decodeLine_joined_single (by decide) h
  | call t1 => exact decodeLine_joined_single (by decide) h
  | ret => rfl
  | endMarker => rfl
  | skip => rfl

theorem nextPiece_replicate_append (n : Nat) (l : Line) :
    nextPiece (List.replicate n ' ' ++ l) = nextPiece l := by
  induction n with
  | zero => rfl
  | succ n ih => rw [List.replicate_succ, List.cons_append, nextPiece_space, ih]

/-- Spaces, a piece, and a text that is empty or begins with a space: the piece is taken off. -/
theorem nextPiece_spaces_append (n : Nat) {t : Token} (ht : noSpace t) (hn : t ≠ []) {l : Line}
    (hl : l = [] ∨ l.head? = some ' ') : nextPiece (List.replicate n ' ' ++ (t ++ l)) = (t, l) := by
  rw [nextPiece_replicate_append, nextPiece_append ht hn hl]

/-- Settles O4: `nextPiece` takes the three pieces off one after another. -/
theorem tokenizeTakesFirstThreePieces : Obligations.TokenizeTakesFirstThreePieces := by
  intro n0 n1 n2 a b c rest ha hb hc sa sb sc hrest
  have hspace (n : Nat) (l : Line) : (List.replicate (n + 1) ' ' ++ l).head? = some ' ' := rfl
  simp only [List.append_assoc, tokenize, nextPiece_spaces_append n0 sa ha (.inr (hspace n1 _)),
    nextPiece_spaces_append (n1 + 1) sb hb (.inr (hspace n2 _)),
    nextPiece_spaces_append (n2 + 1) sc hc hrest]

theorem decodeLine_of_tokenize {l : Line} {m t1 t2 : Token} (h : tokenize l = (m, t1, t2)) :
    decodeLine l = instrOf m t1 t2 := by
  simp only [decodeLine, h]

/-- A first token that is no mnemonic makes a skip (R71, R152). -/
theorem instrOf_of_not_mem {m : Token} (h : m ∉ mnemonics) (t1 t2 : Token) :
    instrOf m t1 t2 = .skip := by
  have hnone : opcodeRows.lookup m = none := by
    rw [List.lookup_eq_none_iff]
    intro row hrow
    rw [bne_iff_ne]
    rintro rfl
    exact h (List.mem_map_of_mem hrow)
  simp only [instrOf, hnone]

/-- Every mnemonic makes an instruction of its own, never a skip (R64). -/
theorem instrOf_ne_skip {m : Token} (h : m ∈ mnemonics) (t1 t2 : Token) :
    instrOf m t1 t2 ≠ .skip := by
  simp only [mnemonics, opcodeRows, List.map_cons, List.map_nil, List.mem_cons, List.not_mem_nil,
    or_false] at h
  rcases h with rfl | rfl | rfl | rfl | rfl | rfl | rfl | rfl | rfl | rfl | rfl | rfl | rfl <;>
    nofun

theorem instrOf_eq_skip_iff (m t1 t2 : Token) : instrOf m t1 t2 = .skip ↔ m ∉ mnemonics :=
  ⟨fun h hm => instrOf_ne_skip hm t1 t2 h, fun h => instrOf_of_not_mem h t1 t2⟩

/-- Settles O5: each spelling picks its row of the opcode map; `instrOf_eq_skip_iff` is the rest. -/
theorem firstTokenPicksInstruction : Obligations.FirstTokenPicksInstruction := by
  intro l m t1 t2 h
  rw [decodeLine_of_tokenize h]
  refine ⟨?_, ?_, ?_, ?_, ?_, ?_, ?_, ?_, ?_, ?_, ?_, ?_, ?_, instrOf_eq_skip_iff m t1 t2⟩ <;>
    (rintro rfl; rfl)

/-! ### Integer literals (R67) -/

/-- The sign of a literal, if it has one. -/
def isSign (sign : List Char) : Prop := sign = [] ∨ sign = ['-'] ∨ sign = ['+']

/-- One digit or more. -/
def isDigits (ds : List Char) : Prop := ds ≠ [] ∧ ∀ c ∈ ds, c.isDigit = true

/-- The value of a literal, as an integer. -/
def literalValue (sign ds : List Char) : Int :=
  if sign = ['-'] then -(digitsValue ds : Int) else digitsValue ds

/-- The integers that an `int32` holds (R8). -/
def inInt32 (z : Int) : Prop := -2147483648 ≤ z ∧ z ≤ 2147483647

theorem splitSign_literal {sign ds : List Char} (hs : isSign sign) (hd : isDigits ds) :
    splitSign (sign ++ ds) = (decide (sign = ['-']), ds) := by
  rcases hs with rfl | rfl | rfl
  · exact splitSign_digits hd.2
  · rfl
  · rfl

/-- What `splitSign` takes off is a sign. -/
theorem exists_sign_append_splitSign (n : List Char) :
    ∃ sign, isSign sign ∧ n = sign ++ (splitSign n).2 := by
  unfold splitSign
  split
  · exact ⟨['-'], .inr (.inl rfl), rfl⟩
  · exact ⟨['+'], .inr (.inr rfl), rfl⟩
  · exact ⟨[], .inl rfl, rfl⟩

theorem parseInt_literal {sign ds : List Char} (hs : isSign sign) (hd : isDigits ds)
    (hz : inInt32 (literalValue sign ds)) :
    parseInt (sign ++ ds) = some (BitVec.ofInt 32 (literalValue sign ds)) := by
  simp only [parseInt, splitSign_literal hs hd, decide_eq_true_eq]
  exact if_pos ⟨hd.1, List.all_eq_true.2 hd.2, hz⟩

theorem parseInt_literal_out_of_range {sign ds : List Char} (hs : isSign sign) (hd : isDigits ds)
    (hz : ¬ inInt32 (literalValue sign ds)) : parseInt (sign ++ ds) = none := by
  simp only [parseInt, splitSign_literal hs hd, decide_eq_true_eq]
  exact if_neg fun ⟨_, _, h⟩ => hz h

/-- The reader accepts nothing but literals. -/
theorem literal_of_parseInt {n : List Char} {v : Word} (h : parseInt n = some v) :
    ∃ sign ds, isSign sign ∧ isDigits ds ∧ n = sign ++ ds := by
  obtain ⟨sign, hs, hn⟩ := exists_sign_append_splitSign n
  obtain ⟨⟨hne, hall, -⟩, -⟩ := Option.ite_none_right_eq_some.1 h
  exact ⟨sign, _, hs, ⟨hne, List.all_eq_true.1 hall⟩, hn⟩

/-- A character of a literal is a sign or a digit, so it shapes no token. -/
theorem literal_plain {sign ds : List Char} (hs : isSign sign) (hd : isDigits ds) :
    ∀ c ∈ sign ++ ds, c ≠ '(' ∧ c ≠ '%' ∧ c ≠ '$' := by
  intro c hc
  rcases List.mem_append.1 hc with hc | hc
  · rcases hs with rfl | rfl | rfl
    · cases hc
    · obtain rfl := List.mem_singleton.1 hc; decide
    · obtain rfl := List.mem_singleton.1 hc; decide
  · have := hd.2 c hc
    exact ⟨ne_of_isDigit this rfl, ne_of_isDigit this rfl, ne_of_isDigit this rfl⟩

theorem toInt_ofInt_of_inInt32 {z : Int} (h : inInt32 z) : (BitVec.ofInt 32 z).toInt = z := by
  obtain ⟨hlo, hhi⟩ := h
  rw [BitVec.toInt_ofInt]
  exact Int.bmod_eq_of_le (by omega) (by omega)

theorem parseOffset_plain {before : List Char} {o : Word} (h : parseOffset before = some o) :
    ∀ c ∈ before, c ≠ '(' ∧ c ≠ '%' ∧ c ≠ '$' := by
  unfold parseOffset at h
  split at h
  · rename_i hn
    subst hn
    nofun
  · obtain ⟨sign, ds, hs, hd, rfl⟩ := literal_of_parseInt h
    exact literal_plain hs hd

theorem parseOffset_intText (o : Word) : parseOffset (intText o) = some o := by
  rw [parseOffset, if_neg (intText_ne_nil o), parseInt_intText]

/-! ### Operand tokens (R91) -/

theorem decodeConstant_of_parseInt {n : List Char} {v : Word} (h : parseInt n = some v) :
    decodeConstant n = .operand (.constant v) := by
  simp only [decodeConstant, h]

theorem decodeConstant_of_no_parseInt {n : List Char} (h : parseInt n = none) :
    decodeConstant n = .malformed .constantShape := by
  simp only [decodeConstant, h]

/-- The token `[INT](%REG)` (R68). -/
theorem decodeOperand_parens {before : List Char} {o : Word} (h : parseOffset before = some o)
    (r : Reg) :
    decodeOperand (before ++ ['('] ++ r.spelling ++ [')']) = .operand (.memory r o) := by
  have hplain := parseOffset_plain h
  have hhead : ∀ c ∈ (before ++ ['('] ++ r.spelling ++ [')']).head?, c ≠ '%' ∧ c ≠ '$' := by
    cases before with
    | nil => simp
    | cons c before => simpa using (hplain c (by simp)).2
  rw [decodeOperand_memory (fun e => (hhead _ e).1 rfl) (fun e => (hhead _ e).2 rfl),
    decodeMemory_parens (fun c hc => (hplain c hc).1) (spelling_noParen r), h]
  simp only [decodeBase, decodeReg_spelling]

/-- Settles O2: the decoder's rule for each kind reads back what the encoder wrote. -/
theorem decodeOfEncodedOperandIsIdentity : Obligations.DecodeOfEncodedOperandIsIdentity := by
  intro o
  cases o with
  | register r => exact decodeOperand_register r
  | memory r o => exact decodeOperand_parens (parseOffset_intText o) r
  | constant v =>
    exact (decodeOperand_constant _).trans (decodeConstant_of_parseInt (parseInt_intText v))
  | invalid => rfl

/-- A text cut at the first `d` in it. -/
theorem eq_takeWhile_append_of_dropWhile {l rest : List Char} {c d : Char}
    (h : l.dropWhile (· != d) = c :: rest) : l = l.takeWhile (· != d) ++ d :: rest := by
  have hc : c = d := by
    have := List.head?_dropWhile_not (· != d) l
    simpa [h] using this
  conv_lhs => rw [← List.takeWhile_append_dropWhile (p := (· != d)) (l := l), h, hc]

/-- Everything a parenthesised name with its offset can be. -/
theorem decodeBase_cases (inner : Token) (o : Word) :
    (∃ r : Reg, inner = r.spelling ∧ decodeBase inner o = .operand (.memory r o)) ∨
    decodeBase inner o = .operand .invalid := by
  unfold decodeBase
  split
  · rename_i r hr
    exact .inl ⟨r, spelling_of_decodeReg hr, rfl⟩
  · exact .inr rfl

/-- Everything rules 3 and 4 of R91 can answer. -/
theorem decodeMemory_cases (t : Token) :
    (∃ before o r, parseOffset before = some o ∧ t = before ++ ['('] ++ Reg.spelling r ++ [')'] ∧
      decodeMemory t = .operand (.memory r o)) ∨
    decodeMemory t = .operand .invalid ∨ decodeMemory t = .malformed .parenthesisShape := by
  unfold decodeMemory
  split
  · split
    · exact .inr (.inr rfl)
    · exact .inr (.inl rfl)
  · rename_i c rest hopen
    dsimp only
    split
    · exact .inr (.inr rfl)
    · rename_i hshape
      split
      · exact .inr (.inr rfl)
      · rename_i o ho
        obtain ⟨r, hr, he⟩ | he := decodeBase_cases (rest.takeWhile (· != ')')) o
        · have hclose : rest.dropWhile (· != ')') = [')'] := by
            by_contra h
            exact hshape (.inl h)
          refine .inl ⟨_, o, r, ho, ?_, he⟩
          rw [← hr, List.append_assoc, List.append_assoc,
            ← eq_takeWhile_append_of_dropWhile hclose]
          exact eq_takeWhile_append_of_dropWhile hopen
        · exact .inr (.inl he)

/-- The rule of R91 that a token falls under. -/
theorem decodeOperand_cases (t : Token) :
    (∃ r, t = r.spelling ∧ decodeOperand t = .operand (.register r)) ∨
    (∃ n, t = '$' :: n ∧ decodeOperand t = decodeConstant n) ∨
    decodeOperand t = decodeMemory t := by
  unfold decodeOperand
  split
  · rename_i r hr
    exact .inl ⟨r, spelling_of_decodeReg hr, rfl⟩
  · split
    · rename_i hd
      exact .inr (.inl ⟨t.tail, (List.cons_head?_tail hd).symm, rfl⟩)
    · exact .inr (.inr rfl)

theorem decodeConstant_cases (n : List Char) : (∃ v, decodeConstant n = .operand (.constant v)) ∨
    decodeConstant n = .malformed .constantShape := by
  cases h : parseInt n with
  | some v => exact .inl ⟨v, decodeConstant_of_parseInt h⟩
  | none => exact .inr (decodeConstant_of_no_parseInt h)

/-- Settles O7: no rule but the first answers a register. -/
theorem registerTokenExactly : Obligations.RegisterTokenExactly := by
  intro t r
  refine ⟨fun h => ?_, fun h => h ▸ decodeOperand_register r⟩
  obtain ⟨r', ht, he⟩ | ⟨n, -, he⟩ | he := decodeOperand_cases t
  · obtain rfl : r' = r := by simpa [h] using he.symm
    exact ht
  · obtain ⟨v, hv⟩ | hm := decodeConstant_cases n <;> simp_all
  · obtain ⟨-, o, b, -, -, hm⟩ | hm | hm := decodeMemory_cases t <;> simp_all

/-- Settles O8: rule 3 alone answers a memory operand, and on this shape only. -/
theorem memoryTokenExactly : Obligations.MemoryTokenExactly := by
  intro t r o
  refine ⟨fun h => ?_, fun ⟨before, ho, ht⟩ => ht ▸ decodeOperand_parens ho r⟩
  obtain ⟨r', -, he⟩ | ⟨n, -, he⟩ | he := decodeOperand_cases t
  · simp [h] at he
  · obtain ⟨v, hv⟩ | hm := decodeConstant_cases n <;> simp_all
  · obtain ⟨before, o', r', ho, ht, hm⟩ | hm | hm := decodeMemory_cases t
    · obtain ⟨rfl, rfl⟩ : r' = r ∧ o' = o := by simpa [h, hm] using he.symm
      exact ⟨before, ho, ht⟩
    · simp_all
    · simp_all

/-- Settles O3: the fixed lines and tokens, evaluated. -/
theorem specLinesDecode : Obligations.SpecLinesDecode := by
  unfold Obligations.SpecLinesDecode
  decide

/-- Settles O6: the literal reader decides the token after the `$`. -/
theorem constantTokenValue : Obligations.ConstantTokenValue := by
  refine ⟨fun sign ds hs hn hd => ⟨fun hz => ?_, fun hz => ?_⟩, fun n hn => ?_⟩
  · rw [decodeOperand_constant, decodeConstant_of_parseInt (parseInt_literal hs ⟨hn, hd⟩ hz)]
    exact ⟨_, rfl, toInt_ofInt_of_inInt32 hz⟩
  · rw [decodeOperand_constant,
      decodeConstant_of_no_parseInt (parseInt_literal_out_of_range hs ⟨hn, hd⟩ hz)]
  · rw [decodeOperand_constant, decodeConstant_of_no_parseInt]
    rw [Option.eq_none_iff_forall_ne_some]
    intro v hv
    obtain ⟨sign, ds, hs, ⟨hne, hd⟩, e⟩ := literal_of_parseInt hv
    exact hn ⟨sign, ds, hs, hne, hd, e⟩

/-! ### The packed word (R77) -/

theorem number_of_ofNumber {n : BitVec 3} {r : Reg} (h : Reg.ofNumber n = some r) :
    r.number = n := by
  have hfound := List.find?_some h
  exact beq_iff_eq.1 hfound

/-- The fields of a packed operand are read back from the operand they unpack to. -/
theorem packOperand_of_unpackOperand {k : BitVec 2} {r : BitVec 3} {v : Word} {o : Operand}
    (h : unpackOperand k r v = some o) : packOperand o = (k, r, v) := by
  unfold unpackOperand at h
  split_ifs at h with h0 hz h1 hz h2 hz
  · obtain ⟨rfl, rfl⟩ := hz
    cases h
    rw [h0]; rfl
  · obtain ⟨b, hb, rfl⟩ := Option.map_eq_some_iff.1 h
    rw [h1, hz, ← number_of_ofNumber hb]; rfl
  · cases h
    rw [h2, hz]; rfl
  · obtain ⟨b, hb, rfl⟩ := Option.map_eq_some_iff.1 h
    have h3 : k = 3#2 := by
      revert h0 h1 h2
      exact (by decide : ∀ k : BitVec 2, k ≠ 0#2 → k ≠ 1#2 → k ≠ 2#2 → k = 3#2) k
    rw [h3, ← number_of_ofNumber hb]; rfl

theorem encodeOperand_ne_nil (o : Operand) : encodeOperand o ≠ [] := by
  cases o with
  | register r => cases r <;> nofun
  | memory r o => simp [encodeOperand]
  | constant v => nofun
  | invalid => nofun

theorem noSpace_encodeOperand (o : Operand) : noSpace (encodeOperand o) := by
  have hint (v : Word) : ' ' ∉ intText v := fun h => (intText_plain v ' ' h).2.2.1 rfl
  have hreg (r : Reg) : ' ' ∉ r.spelling := fun h => (spelling_noParen r ' ' h).2.2 rfl
  rintro c hc rfl
  cases o with
  | register r => exact hreg r hc
  | memory r o => simp [encodeOperand, hint, hreg] at hc
  | constant v => simp [encodeOperand, hint] at hc
  | invalid => simp [encodeOperand] at hc

theorem noSpace_labelText {sigil : Char} (h : sigil ≠ ' ') (id : Word) :
    noSpace (labelText sigil id) := by
  intro c hc
  rcases List.mem_cons.1 hc with rfl | hc
  · exact h
  · exact ne_of_isDigit (decimal_isDigit _ c hc) rfl

/-- The numbering reads back the number that a label text was written for. -/
theorem labelId_labelText (sigil : Char) (id : Word) : labelId (labelText sigil id) = id := by
  have hlt : id.toNat < 10 ^ 10 := by have := id.isLt; omega
  rw [labelId, labelText, List.tail_cons, digitsValue_decimal hlt, BitVec.ofNat_toNat,
    BitVec.setWidth_eq]

/-- Everything a label field can be (R77). -/
theorem unpackLabel_eq_some {sigil : Char} {w : BitVec 80} {t : Token}
    (h : unpackLabel sigil w = some t) :
    (packedR1 w = 0#3 ∧ packedK2 w = 0#2 ∧ packedR2 w = 0#3 ∧ packedV2 w = 0#32) ∧
    ((packedK1 w = 1#2 ∧ t = labelText sigil (packedV1 w)) ∨
      (packedK1 w = 0#2 ∧ packedV1 w = 0#32 ∧ t = [])) := by
  unfold unpackLabel at h
  split_ifs at h with hz h1 h0
  · exact ⟨hz, .inl ⟨h1, (Option.some.inj h).symm⟩⟩
  · exact ⟨hz, .inr ⟨h0.1, h0.2, (Option.some.inj h).symm⟩⟩

/-- The line of a packed word, by the format of its opcode (R65, R77). -/
inductive Unpacked (sigil : Char) (w : BitVec 80) : Line → Prop
  | two {a b : Operand} (hop : packedOp w = 1#4 ∨ packedOp w = 2#4 ∨ packedOp w = 5#4)
      (ha : packOperand a = (packedK1 w, packedR1 w, packedV1 w))
      (hb : packOperand b = (packedK2 w, packedR2 w, packedV2 w)) :
      Unpacked sigil w (joinTokens (mnemonicOf (packedOp w)) (encodeOperand a) (encodeOperand b))
  | one {a : Operand} (hop : packedOp w = 3#4 ∨ packedOp w = 4#4)
      (ha : packOperand a = (packedK1 w, packedR1 w, packedV1 w))
      (hz : packedK2 w = 0#2 ∧ packedR2 w = 0#3 ∧ packedV2 w = 0#32) :
      Unpacked sigil w (joinTokens (mnemonicOf (packedOp w)) (encodeOperand a) [])
  | bare (hop : packedOp w = 12#4 ∨ packedOp w = 13#4) (h0 : unpackLabel sigil w = some [])
      (hk : packedK1 w = 0#2) : Unpacked sigil w (mnemonicOf (packedOp w))
  | definition {t : Token} (hop : packedOp w = 0#4) (ht : unpackLabel sigil w = some t) :
      Unpacked sigil w t
  | reserved (hop : packedOp w = 14#4 ∨ packedOp w = 15#4) : Unpacked sigil w []
  | label {t : Token} (hop : packedOp w ∈ [6#4, 7#4, 8#4, 9#4, 10#4, 11#4])
      (ht : unpackLabel sigil w = some t) :
      Unpacked sigil w (joinTokens (mnemonicOf (packedOp w)) t [])

/-- The opcodes that `unpackLine` leaves to the format FL (R65). -/
theorem label_opcode : ∀ op : BitVec 4, ¬ (op = 1#4 ∨ op = 2#4 ∨ op = 5#4) →
    ¬ (op = 3#4 ∨ op = 4#4) → ¬ (op = 12#4 ∨ op = 13#4) → op ≠ 0#4 → ¬ (op = 14#4 ∨ op = 15#4) →
    op ∈ [6#4, 7#4, 8#4, 9#4, 10#4, 11#4] := by
  decide

/-- Everything `unpackLine` can answer. -/
theorem unpackLine_eq_some {sigil : Char} {w : BitVec 80} {l : Line}
    (h : unpackLine sigil w = some l) : packedZero w = 0#2 ∧ Unpacked sigil w l := by
  unfold unpackLine at h
  split at h
  · cases h
  rename_i hzero
  refine ⟨not_not.1 hzero, ?_⟩
  split at h
  · split at h
    · rename_i hop _ _ _ _ ha hb
      cases h
      exact .two hop (packOperand_of_unpackOperand ha) (packOperand_of_unpackOperand hb)
    · cases h
  rename_i h2
  split_ifs at h with h1 hz hbare hk h0 hres
  · obtain ⟨a, ha, rfl⟩ := Option.map_eq_some_iff.1 h
    exact .one h1 (packOperand_of_unpackOperand ha) hz
  · cases h
    exact .bare hbare hk.2 hk.1
  · exact .definition h0 h
  · obtain ⟨t, -, rfl⟩ := Option.map_eq_some_iff.1 h
    exact .reserved hres
  · obtain ⟨t, ht, rfl⟩ := Option.map_eq_some_iff.1 h
    exact .label (label_opcode _ h2 h1 hbare h0 hres) ht

/-- The tokens written for two operands pack to the operands' fields. -/
theorem packF2_encodeOperand {a b : Operand} {k1 k2 : BitVec 2} {r1 r2 : BitVec 3} {v1 v2 : Word}
    (ha : packOperand a = (k1, r1, v1)) (hb : packOperand b = (k2, r2, v2)) (op : BitVec 4) :
    packF2 op (encodeOperand a) (encodeOperand b) = some (packFields op k1 r1 v1 k2 r2 v2) := by
  simp only [packF2, decodeOfEncodedOperandIsIdentity a, decodeOfEncodedOperandIsIdentity b, ha, hb]

theorem packF1_encodeOperand {a : Operand} {k1 : BitVec 2} {r1 : BitVec 3} {v1 : Word}
    (ha : packOperand a = (k1, r1, v1)) (op : BitVec 4) :
    packF1 op (encodeOperand a) = some (packFields op k1 r1 v1 0#2 0#3 0#32) := by
  simp only [packF1, decodeOfEncodedOperandIsIdentity a, ha]

/-- The label field of a word packs to the word's own fields, under the numbering of `labelText`. -/
theorem packFL_unpackLabel {sigil : Char} {w : BitVec 80} {t : Token}
    (h : unpackLabel sigil w = some t) (op : BitVec 4) :
    packFL sigil labelId op t = packFields op (packedK1 w) (packedR1 w) (packedV1 w) (packedK2 w)
      (packedR2 w) (packedV2 w) := by
  obtain ⟨⟨hr1, hk2, hr2, hv2⟩, ⟨hk1, rfl⟩ | ⟨hk1, hv1, rfl⟩⟩ := unpackLabel_eq_some h
  · have hlabel : isLabelToken sigil (labelText sigil (packedV1 w)) = true := beq_self_eq_true _
    rw [packFL, if_pos hlabel, labelId_labelText, hk1, hr1, hk2, hr2, hv2]
  · rw [packFL, if_neg (by simp [isLabelToken]), hk1, hr1, hv1, hk2, hr2, hv2]

theorem mnemonicOf_mem : ∀ op : BitVec 4, 0 < op.toNat → op.toNat < 14 →
    mnemonicOf op ∈ mnemonics := by
  decide

theorem noSpace_unpackLabel {sigil : Char} (hs : sigil ≠ ' ') {w : BitVec 80} {t : Token}
    (h : unpackLabel sigil w = some t) : noSpace t := by
  obtain ⟨-, ⟨-, rfl⟩ | ⟨-, -, rfl⟩⟩ := unpackLabel_eq_some h
  · exact noSpace_labelText hs _
  · nofun

/-- Before a token that begins with the sigil stands no mnemonic, so it is a skip (R70, R71). -/
theorem decodeLine_label {sigil : Char} {t : Token} (hm : ∀ m ∈ mnemonics, m.head? ≠ some sigil)
    (ht : noSpace t) (hl : isLabelToken sigil t = true) : decodeLine t = .skip := by
  have htok : tokenize t = (t, [], []) := by
    simp only [tokenize, nextPiece_self ht, nextPiece_nil]
  rw [decodeLine_of_tokenize htok]
  exact instrOf_of_not_mem (fun h => hm t h (beq_iff_eq.1 hl)) _ _

theorem packLine_skip {sigil : Char} {ids : Token → Word} {l : Line} (h : decodeLine l = .skip) :
    packLine sigil ids l =
      some (if isLabelLine sigil l then packFields 0#4 1#2 0#3 (ids l) 0#2 0#3 0#32
        else packFields 0#4 0#2 0#3 0#32 0#2 0#3 0#32) := by
  rw [packLine, h]
  exact (apply_ite some _ _ _).symm

/-- A label definition line packs to its own number (R70, R77). -/
theorem packLine_label {sigil : Char} {t : Token} (hm : ∀ m ∈ mnemonics, m.head? ≠ some sigil)
    (ht : noSpace t) (hl : isLabelToken sigil t = true) (ids : Token → Word) :
    packLine sigil ids t = some (packFields 0#4 1#2 0#3 (ids t) 0#2 0#3 0#32) := by
  have hline : isLabelLine sigil t = true := by
    rw [isLabelLine, hl, Bool.true_and, List.all_eq_true]
    exact fun c hc => bne_iff_ne.2 (ht c hc)
  rw [packLine_skip (decodeLine_label hm ht hl), if_pos hline]

theorem packLine_unpackLabel {w : BitVec 80} {t : Token} (h : unpackLabel '.' w = some t) :
    packLine '.' labelId t = some (packFields 0#4 (packedK1 w) (packedR1 w) (packedV1 w)
      (packedK2 w) (packedR2 w) (packedV2 w)) := by
  have hs := noSpace_unpackLabel (by decide) h
  obtain ⟨⟨hr1, hk2, hr2, hv2⟩, ⟨hk1, rfl⟩ | ⟨hk1, hv1, rfl⟩⟩ := unpackLabel_eq_some h
  · rw [packLine_label (by decide) hs (beq_self_eq_true _), labelId_labelText, hk1, hr1, hk2, hr2,
      hv2]
  · rw [hk1, hr1, hv1, hk2, hr2, hv2]
    rfl

/-- The joined line of an opcode's mnemonic and two tokens decodes to the opcode's row. -/
theorem decodeLine_mnemonicOf {op : BitVec 4} (hlt : op.toNat < 14) (hpos : 0 < op.toNat)
    {t1 t2 : Token} (h1 : noSpace t1) (h2 : noSpace t2) (hgap : t1 = [] → t2 = []) :
    decodeLine (joinTokens (mnemonicOf op) t1 t2) = instrOf (mnemonicOf op) t1 t2 :=
  have hm := mnemonicOf_mem op hpos hlt
  decodeLine_joinTokens (noSpace_of_mem_mnemonics hm) (ne_nil_of_mem_mnemonics _ hm) h1 h2 hgap

/-- A word that unpacks packs back: its line decodes to the row of its opcode, and the tokens pack
to its fields. -/
theorem packLine_unpacked {w : BitVec 80} {l : Line} (h : Unpacked '.' w l)
    (hlt : (packedOp w).toNat < 14) : packLine '.' labelId l =
      some (packFields (packedOp w) (packedK1 w) (packedR1 w) (packedV1 w) (packedK2 w) (packedR2 w)
        (packedV2 w)) := by
  cases h with
  | @two a b hop ha hb =>
    have hd := decodeLine_mnemonicOf hlt (by rcases hop with e | e | e <;> simp [e])
      (noSpace_encodeOperand a) (noSpace_encodeOperand b) fun e => absurd e (encodeOperand_ne_nil a)
    rw [packLine, hd]
    rcases hop with e | e | e <;> rw [e] <;> exact packF2_encodeOperand ha hb _
  | @one a hop ha hz =>
    obtain ⟨hk2, hr2, hv2⟩ := hz
    have hd := decodeLine_mnemonicOf hlt (t2 := []) (by rcases hop with e | e <;> simp [e])
      (noSpace_encodeOperand a) nofun fun _ => rfl
    rw [packLine, hd, hk2, hr2, hv2]
    rcases hop with e | e <;> rw [e] <;> exact packF1_encodeOperand ha _
  | bare hop h0 hk =>
    obtain ⟨⟨hr1, hk2, hr2, hv2⟩, ⟨-, e⟩ | ⟨-, hv1, -⟩⟩ := unpackLabel_eq_some h0
    · cases e
    · rw [hk, hr1, hv1, hk2, hr2, hv2]
      rcases hop with e | e <;> rw [e] <;> rfl
  | definition hop ht => rw [hop]; exact packLine_unpackLabel ht
  | reserved hop => rcases hop with e | e <;> simp [e] at *
  | @label t hop ht =>
    simp only [List.mem_cons, List.not_mem_nil, or_false] at hop
    have hd := decodeLine_mnemonicOf hlt (t2 := [])
      (by rcases hop with e | e | e | e | e | e <;> simp [e])
      (noSpace_unpackLabel (by decide) ht) nofun fun _ => rfl
    rw [packLine, hd, ← packFL_unpackLabel ht]
    rcases hop with e | e | e | e | e | e <;> rw [e] <;> rfl

/-- Settles O9: with its two low bits zero, a word is the packing of its fields. -/
theorem packOfUnpackIsIdentity : Obligations.PackOfUnpackIsIdentity := by
  intro w l hl hop
  obtain ⟨hzero, hw⟩ := unpackLine_eq_some hl
  rw [packLine_unpacked hw hop, packFields_of_fields w hzero]

/-- Settles O12: the fixed words and lines, evaluated. -/
theorem specPackedWords : Obligations.SpecPackedWords := by
  unfold Obligations.SpecPackedWords
  decide

/-! ### Reserved words -/

theorem number_toNat_lt (r : Reg) : r.number.toNat < 6 := by
  cases r <;> decide

/-- The register number of a packed register or memory operand is one of the six (R77). -/
theorem packOperand_number_lt {o : Operand} {k : BitVec 2} {r : BitVec 3} {v : Word}
    (h : packOperand o = (k, r, v)) (hk : k.toNat ∈ [1, 3]) : r.toNat < 6 := by
  cases o <;> (obtain ⟨rfl, rfl, rfl⟩ := by simpa only [packOperand, Prod.mk.injEq] using h)
  · exact number_toNat_lt _
  · exact number_toNat_lt _
  · simp at hk
  · simp at hk

theorem decodePacked_eq_none {sigil : Char} {w : BitVec 80}
    (h : ∀ l, unpackLine sigil w ≠ some l) : decodePacked sigil w = none := by
  rw [decodePacked, Option.eq_none_iff_forall_ne_some.2 h]
  rfl

/-- Opcodes 14 and 15 with no label field are read as the empty line. -/
theorem unpackLine_reserved {sigil : Char} {w : BitVec 80}
    (hop : packedOp w = 14#4 ∨ packedOp w = 15#4) (hz : packedZero w = 0#2)
    (h : unpackLabel sigil w = some []) : unpackLine sigil w = some [] := by
  rcases hop with e | e <;> simp [unpackLine, hz, e, h]

/-- A word whose bits 75:0 are zero has no field but its opcode. -/
theorem fields_of_low_bits_zero {w : BitVec 80} (h : w.extractLsb' 0 76 = 0#76) :
    packedK1 w = 0#2 ∧ packedR1 w = 0#3 ∧ packedV1 w = 0#32 ∧ packedK2 w = 0#2 ∧
      packedR2 w = 0#3 ∧ packedV2 w = 0#32 ∧ packedZero w = 0#2 := by
  have hfield (i n : Nat) (hi : i + n ≤ 76) : w.extractLsb' i n = 0#n := by
    rw [← BitVec.extractLsb'_extractLsb'_of_le hi, h, BitVec.extractLsb'_zero]
  exact ⟨hfield 74 2 (by decide), hfield 71 3 (by decide), hfield 39 32 (by decide),
    hfield 37 2 (by decide), hfield 34 3 (by decide), hfield 2 32 (by decide),
    hfield 0 2 (by decide)⟩

/-- Both operand fields of a word of format F1 or F2 that unpacks pack an operand. -/
theorem packedOperands_of_unpacked {sigil : Char} {w : BitVec 80} {l : Line}
    (h : Unpacked sigil w l) (hop : (packedOp w).toNat ∈ [1, 2, 3, 4, 5]) :
    ∃ a b, packOperand a = (packedK1 w, packedR1 w, packedV1 w) ∧
      packOperand b = (packedK2 w, packedR2 w, packedV2 w) := by
  cases h with
  | two _ ha hb => exact ⟨_, _, ha, hb⟩
  | one _ ha hz =>
    obtain ⟨hk2, hr2, hv2⟩ := hz
    exact ⟨_, .invalid, ha, by rw [hk2, hr2, hv2]; rfl⟩
  | bare hbare _ _ => rcases hbare with e | e <;> simp [e] at hop
  | definition h0 _ => simp [h0] at hop
  | reserved hres => rcases hres with e | e <;> simp [e] at hop
  | label hfl _ =>
    simp only [List.mem_cons, List.not_mem_nil, or_false] at hfl
    rcases hfl with e | e | e | e | e | e <;> simp [e] at hop

/-- Settles O11: an operand that packs has no reserved register number, and a word that is all zero
below its opcode 14 or 15 is the empty line. -/
theorem packedReservedWords : Obligations.PackedReservedWords := by
  intro sigil w
  refine ⟨fun hz => ?_, fun hop hk hr => ?_, fun hop hk hr => ?_, fun hop hlow => ?_⟩
  · exact decodePacked_eq_none fun l hl => hz (unpackLine_eq_some hl).1
  · refine decodePacked_eq_none fun l hl => ?_
    obtain ⟨a, b, ha, -⟩ := packedOperands_of_unpacked (unpackLine_eq_some hl).2 hop
    exact hr.not_gt (packOperand_number_lt ha hk)
  · refine decodePacked_eq_none fun l hl => ?_
    have htwo : [1, 2, 5] ⊆ [1, 2, 3, 4, 5] := by decide
    obtain ⟨a, b, -, hb⟩ := packedOperands_of_unpacked (unpackLine_eq_some hl).2 (htwo hop)
    exact hr.not_gt (packOperand_number_lt hb hk)
  · obtain ⟨hk1, hr1, hv1, hk2, hr2, hv2, hz⟩ := fields_of_low_bits_zero hlow
    have hop' : packedOp w = 14#4 ∨ packedOp w = 15#4 := by
      bv_omega
    have hlabel : unpackLabel sigil w = some [] := by
      simp [unpackLabel, hk1, hr1, hv1, hk2, hr2, hv2]
    rw [decodePacked, unpackLine_reserved hop' hz hlabel]
    rfl

/-! ### The label resolver on packed words (R78) -/

/-- The token that a jump or CALL resolves; no other instruction has one. -/
def Instr.labelToken : Instr → Token
  | .jmp t | .je t | .jne t | .jl t | .jg t | .call t => t
  | _ => []

theorem noSpace_nextPiece (l : Line) : noSpace (nextPiece l).1 := by
  intro c hc
  simpa using List.mem_takeWhile_imp hc

theorem labelToken_of_mem {t : Token} :
    ∀ j ∈ [Instr.jmp t, .je t, .jne t, .jl t, .jg t, .call t], j.labelToken = t := by
  simp [Instr.labelToken]

theorem instrOf_cases (m t1 t2 : Token) :
    instrOf m t1 t2 = .skip ∨ ∃ row ∈ opcodeRows, instrOf m t1 t2 = row.2 t1 t2 := by
  unfold instrOf
  split
  · rename_i build h
    obtain ⟨l1, l2, e, -⟩ := List.lookup_eq_some_iff.1 h
    exact .inr ⟨(m, build), by simp [e], rfl⟩
  · exact .inl rfl

/-- The label token of a line is its second piece, if it has one. -/
theorem noSpace_labelToken (l : Line) : noSpace (decodeLine l).labelToken := by
  have hrow : ∀ row ∈ opcodeRows, ∀ t1 t2, (row.2 t1 t2).labelToken = t1 ∨
      (row.2 t1 t2).labelToken = [] := by
    simp [opcodeRows, Instr.labelToken]
  unfold decodeLine
  obtain h | ⟨row, hmem, h⟩ :=
    instrOf_cases (tokenize l).1 (tokenize l).2.1 (tokenize l).2.2 <;> rw [h]
  · nofun
  · obtain e | e := hrow row hmem (tokenize l).2.1 (tokenize l).2.2 <;> rw [e]
    · exact noSpace_nextPiece _
    · nofun

theorem packedOp_packF2 {op : BitVec 4} {t1 t2 : Token} {w : BitVec 80}
    (h : packF2 op t1 t2 = some w) : packedOp w = op := by
  unfold packF2 at h
  split at h
  · cases h
    exact packedOp_packFields ..
  · cases h

theorem packedOp_packF1 {op : BitVec 4} {t1 : Token} {w : BitVec 80} (h : packF1 op t1 = some w) :
    packedOp w = op := by
  unfold packF1 at h
  split at h
  · cases h
    exact packedOp_packFields ..
  · cases h

theorem packedOp_packFL (sigil : Char) (ids : Token → Word) (op : BitVec 4) (t1 : Token) :
    packedOp (packFL sigil ids op t1) = op := by
  unfold packFL
  split <;> exact packedOp_packFields ..

/-- Only a skip packs to opcode 0 (R77). -/
theorem decodeLine_of_packedOp_zero {sigil : Char} {ids : Token → Word} {l : Line} {w : BitVec 80}
    (h : packLine sigil ids l = some w) (h0 : packedOp w = 0#4) : decodeLine l = .skip := by
  cases hd : decodeLine l <;> rw [packLine, hd] at h
  all_goals exfalso
  case movl | addl | cmpl => rw [packedOp_packF2 h] at h0; cases h0
  case pushl | popl => rw [packedOp_packF1 h] at h0; cases h0
  case ret | endMarker => rw [← Option.some.inj h, packedOp_packFields] at h0; cases h0
  all_goals rw [← Option.some.inj h, packedOp_packFL] at h0; cases h0

/-- A line whose word defines a label is that label's definition line (R78). -/
theorem isLabelLine_of_packedDefines {sigil : Char} {ids : Token → Word} {l : Line} {w : BitVec 80}
    {id : Word} (h : packLine sigil ids l = some w) (hdef : Machine.packedDefines id w = true) :
    isLabelLine sigil l = true ∧ ids l = id := by
  simp only [Machine.packedDefines, Bool.and_eq_true, beq_iff_eq] at hdef
  obtain ⟨⟨h0, hk1⟩, hv1⟩ := hdef
  rw [packLine_skip (decodeLine_of_packedOp_zero h h0)] at h
  split at h
  · cases h
    rw [packedV1_packFields] at hv1
    exact ⟨‹_›, hv1⟩
  · cases h
    rw [packedK1_packFields] at hk1
    cases hk1

/-- The word of a line defines the label `t` exactly if the line is `t` (R70, R78). -/
theorem packedDefines_eq {sigil : Char} {ids : Token → Word} {l : Line} {w : BitVec 80} {t : Token}
    (hm : ∀ m ∈ mnemonics, m.head? ≠ some sigil) (ht : noSpace t) (hl : isLabelToken sigil t = true)
    (h : packLine sigil ids l = some w)
    (hinj : isLabelToken sigil l = true → ids l = ids t → l = t) :
    Machine.packedDefines (ids t) w = (l == t) := by
  rw [Bool.eq_iff_iff, beq_iff_eq]
  refine ⟨fun hdef => ?_, ?_⟩
  · obtain ⟨hline, hid⟩ := isLabelLine_of_packedDefines h hdef
    exact hinj (Bool.and_eq_true_iff.1 hline).1 hid
  · rintro rfl
    obtain rfl := Option.some.inj ((packLine_label hm ht hl ids).symm.trans h)
    simp [Machine.packedDefines, packedOp_packFields, packedK1_packFields, packedV1_packFields]

/-- The word of a jump or CALL is that of its label token. -/
theorem packLine_jump {sigil : Char} {ids : Token → Word} {l : Line} {t : Token} {w : BitVec 80}
    (hj : ∃ j ∈ [Instr.jmp t, .je t, .jne t, .jl t, .jg t, .call t], decodeLine l = j)
    (h : packLine sigil ids l = some w) : ∃ op, w = packFL sigil ids op t := by
  obtain ⟨j, hj, hd⟩ := hj
  simp only [List.mem_cons, List.not_mem_nil, or_false] at hj
  rcases hj with rfl | rfl | rfl | rfl | rfl | rfl <;>
    (rw [packLine, hd] at h; exact ⟨_, (Option.some.inj h).symm⟩)

/-- Searching the packed store for what the lines' words satisfy is searching the text. -/
theorem findIdx?_of_map_some {store : List Line} {slots : List (BitVec 80)}
    {pack : Line → Option (BitVec 80)} (h : store.map pack = slots.map some) {p : BitVec 80 → Bool}
    {q : Line → Bool} (hpq : ∀ l ∈ store, ∀ w, pack l = some w → p w = q l) :
    slots.findIdx? p = store.findIdx? q := by
  have hmap : store.map q = slots.map p := by
    calc store.map q = store.map (fun l => (pack l).any p) := List.map_congr_left fun l hl => by
          obtain ⟨w, -, hw⟩ := List.mem_map.1 (h ▸ List.mem_map_of_mem (f := pack) hl)
          rw [← hw, Option.any_some, hpq l hl w hw.symm]
      _ = (store.map pack).map (Option.any p) := by rw [List.map_map]; rfl
      _ = slots.map p := by rw [h, List.map_map]; rfl
  have hs := List.findIdx?_map (p := id) (f := p) (l := slots)
  rw [← hmap, List.findIdx?_map] at hs
  exact hs.symm

/-- Settles O10: both resolvers look for the same slots, `packedDefines_eq`. -/
theorem packedResolverAgrees : Obligations.PackedResolverAgrees := by
  intro s ids slots l t w hm hinj hslots hj hw
  have ht : noSpace t := by
    obtain ⟨j, hj, hd⟩ := hj
    rw [← labelToken_of_mem j hj, ← hd]
    exact noSpace_labelToken l
  obtain ⟨op, rfl⟩ := packLine_jump hj hw
  by_cases hl : isLabelToken s.cfg.labelSigil t = true
  · have hfind : slots.findIdx? (Machine.packedDefines (ids t)) = s.store.findIdx? (· == t) :=
      findIdx?_of_map_some hslots fun k hk v hv => packedDefines_eq hm ht hl hv fun hk' hid =>
        hinj k (by simp [hk]) t (by simp) hk' hl hid
    rw [packFL, if_pos hl, Machine.packedResolve, packedK1_packFields, packedV1_packFields, hfind,
      Machine.State.resolveLabel, if_pos rfl, if_pos (beq_iff_eq.1 hl)]
  · rw [packFL, if_neg hl, Machine.packedResolve, packedK1_packFields, if_neg (by decide),
      Machine.State.resolveLabel, if_neg fun e => hl (beq_iff_eq.2 e)]

end Sys2Proof

/-! ## Malformed tokens: refused by a step, and by the launch

`exec_cases` says once when an instruction is refused; an admitted one therefore steps, and a
launched store is admitted for good. -/

namespace Sys2Proof.Machine

/-! ### Refusals -/

theorem withOperand_malformed {t : Token} {why : Malformed} (h : decodeOperand t = .malformed why)
    (k : Operand → Host.Outcome State Fault Refusal) :
    withOperand t k = .refused (.malformedOperand why t) := by
  simp only [withOperand, h]

theorem withOperand_operand {t : Token} {o : Operand} (h : decodeOperand t = .operand o)
    (k : Operand → Host.Outcome State Fault Refusal) : withOperand t k = k o := by
  simp only [withOperand, h]

/-- The refusal names a malformed token (R73, U1). -/
def Refusal.named (r : Refusal) : Prop :=
  ∃ why t, r = .malformedOperand why t ∧ decodeOperand t = .malformed why

/-- An executor of one operand: an admitted token, or a refusal by name. -/
theorem withOperand_cases (t : Token) (k : Operand → Host.Outcome State Fault Refusal) :
    (Token.admitted t = true ∧ ∃ o, withOperand t k = k o) ∨
    (Token.admitted t = false ∧ ∃ r, Refusal.named r ∧ withOperand t k = .refused r) := by
  unfold Token.admitted
  cases h : decodeOperand t with
  | operand o => exact .inl ⟨rfl, o, withOperand_operand h k⟩
  | malformed why => exact .inr ⟨rfl, _, ⟨why, t, rfl, h⟩, withOperand_malformed h k⟩

/-- The executors of one operand: an admitted token steps. -/
theorem withOperand_finish_cases (t : Token) (k : Operand → State × Res) :
    (Token.admitted t = true ∧ ∃ u, (withOperand t fun a => finishAdvance (k a)) = .next u) ∨
    (Token.admitted t = false ∧ ∃ r, Refusal.named r ∧
      (withOperand t fun a => finishAdvance (k a)) = .refused r) :=
  (withOperand_cases t _).imp_left fun ⟨h, _, e⟩ => ⟨h, _, e⟩

/-- The executors of two operands: two admitted tokens step, the first malformed one is named. -/
theorem withOperand2_finish_cases (t1 t2 : Token) (k : Operand → Operand → State × Res) :
    ((Token.admitted t1 && Token.admitted t2) = true ∧
      ∃ u, (withOperand t1 fun a => withOperand t2 fun b => finishAdvance (k a b)) = .next u) ∨
    ((Token.admitted t1 && Token.admitted t2) = false ∧ ∃ r, Refusal.named r ∧
      (withOperand t1 fun a => withOperand t2 fun b => finishAdvance (k a b)) = .refused r) := by
  obtain ⟨h1, a, e1⟩ | ⟨h1, r, hr, e1⟩ :=
    withOperand_cases t1 fun a => withOperand t2 fun b => finishAdvance (k a b)
  · rw [h1, e1, Bool.true_and]
    exact withOperand_finish_cases t2 (k a)
  · exact .inr ⟨by rw [h1, Bool.false_and], r, hr, e1⟩

/-- An instruction steps if its tokens are admitted, and is refused by name if not. -/
theorem exec_cases (i : Instr) (s : State) :
    (i.admitted = true ∧ ∃ t, exec i s = .next t) ∨
    (i.admitted = false ∧ ∃ r, Refusal.named r ∧ exec i s = .refused r) := by
  cases i with
  | movl t1 t2 => exact withOperand2_finish_cases t1 t2 s.moveExec
  | addl t1 t2 => exact withOperand2_finish_cases t1 t2 s.addExec
  | cmpl t1 t2 => exact withOperand2_finish_cases t1 t2 s.compareExec
  | pushl t1 => exact withOperand_finish_cases t1 s.pushExec
  | popl t1 => exact withOperand_finish_cases t1 s.popExec
  | jmp | je | jne | jl | jg | call | ret | endMarker | skip => exact .inl ⟨rfl, _, rfl⟩

/-- Settles O30: the first malformed token is the one `withOperand` names, and `exec_cases` says
that nothing else is refused. -/
theorem malformedOperandIsRefused : Obligations.MalformedOperandIsRefused := by
  refine ⟨fun s t1 t2 why h => ?_, fun s t1 t2 a why h1 h2 => ?_, fun s i r hr => ?_⟩
  · exact ⟨withOperand_malformed h _, withOperand_malformed h _, withOperand_malformed h _,
      withOperand_malformed h _, withOperand_malformed h _⟩
  · have hsecond (k : Operand → Operand → Host.Outcome State Fault Refusal) :
        (withOperand t1 fun a => withOperand t2 fun b => k a b) =
          .refused (.malformedOperand why t2) := by
      rw [withOperand_operand h1, withOperand_malformed h2]
    exact ⟨hsecond _, hsecond _, hsecond _⟩
  · obtain ⟨-, t, ht⟩ | ⟨hi, r', hnamed, he⟩ := exec_cases i s
    · cases ht.symm.trans hr
    · cases he.symm.trans hr
      exact ⟨hi, hnamed⟩

/-! ### Admitted programs -/

theorem State.admittedStore_congr {s t : State} (h : t.store = s.store) (hs : s.admittedStore) :
    t.admittedStore := by
  intro l hl
  exact hs l (h ▸ hl)

/-- A fetched line is a line of the store, or the empty line, which is a skip. -/
theorem State.admitted_fetchLine {s : State} (h : s.admittedStore) :
    (decodeLine s.fetchLine).admitted = true := by
  rw [State.fetchLine, State.line, List.getD_eq_getElem?_getD]
  cases hl : s.store[(idx s.pc.toInt).toNat]? with
  | none => rfl
  | some l => exact h l (List.mem_of_getElem? hl)

/-- Settles O31: the fetched line is admitted, so it steps, and no step changes the store. -/
theorem admittedProgramIsNeverRefused : Obligations.AdmittedProgramIsNeverRefused := by
  intro s hs ⟨hh, hf⟩
  have hstep : ∃ t, step s = .next t := by
    cases hok : fetchOk s.cfg s.pc.toInt with
    | false => exact ⟨_, step_of_not_fetchOk hh hf hok⟩
    | true =>
      rw [step_of_fetchOk hh hf hok]
      obtain ⟨-, ht⟩ | ⟨hno, -⟩ := exec_cases (decodeLine s.fetchLine) s
      · exact ht
      · cases (s.admitted_fetchLine hs).symm.trans hno
  obtain ⟨t, ht⟩ := hstep
  obtain ⟨-, hstore, -⟩ := storeIsReadOnly s t ht
  exact ⟨t, ht, State.admittedStore_congr hstore hs⟩

theorem run_succ_of_fault (M : Host.Core) (n : Nat) (s : M.State) {f : M.Fault}
    (h : M.step s = .fault f) : M.run (n + 1) s = .fault f := by
  simp only [Host.Core.run, h]

theorem step_of_not_running {s : State} (h : ¬ s.running) : ∃ f, step s = .fault f := by
  cases hh : s.halted with
  | true => exact ⟨_, step_of_halted hh⟩
  | false =>
    cases hf : s.fault with
    | fetchFault => exact ⟨_, step_of_faulted hh hf⟩
    | none => exact absurd ⟨hh, hf⟩ h

/-- A machine with an admitted store runs on, or stops because it halted or faulted. -/
theorem run_never_refused (n : Nat) {s : State} (hs : s.admittedStore) (r : Refusal) :
    Host.Core.run Sys2Proof.core n s ≠ .refused r := by
  induction n generalizing s with
  | zero => nofun
  | succ n ih =>
    by_cases hrun : s.running
    · obtain ⟨t, ht, hstore⟩ := admittedProgramIsNeverRefused s hs hrun
      rw [run_succ ht]
      exact ih hstore
    · obtain ⟨f, hf⟩ := step_of_not_running hrun
      rw [run_succ_of_fault Sys2Proof.core n s hf]
      nofun

/-- Settles O55: the loader admits the program, presets keep the store, and `run_never_refused`. -/
theorem launchedMachineIsNeverRefused : Obligations.LaunchedMachineIsNeverRefused := by
  intro c m program ps s h
  obtain ⟨ha, hps⟩ := launch_ok h
  obtain ⟨-, hstore, -⟩ := State.presets_sameSetup hps
  have hs : s.admittedStore := by
    intro l hl
    rw [hstore] at hl
    exact ha l hl
  exact ⟨hs, fun n r => run_never_refused n hs r⟩

/-! ### What a launch answers -/

/-- The loader names the lowest slot with a malformed token (R73, U1). -/
theorem State.loadProgram_error {s : State} {program : List Line} {i : Nat} {l : Line}
    (hi : i < s.cfg.istoreSlots) (hl : program[i]? = some l)
    (hbad : (decodeLine l).admitted = false)
    (hlow : ∀ (j : Nat) (k : Line), j < i → program[j]? = some k → (decodeLine k).admitted = true) :
    s.loadProgram program = .error (.malformedOperand i) := by
  have hfind : (program.take s.cfg.istoreSlots).findIdx? (fun l => !(decodeLine l).admitted) =
      some i := by
    have htake {j : Nat} (hj : j < s.cfg.istoreSlots) :
        (program.take s.cfg.istoreSlots)[j]? = program[j]? := List.getElem?_take_of_lt hj
    obtain ⟨hlt, he⟩ := List.getElem?_eq_some_iff.1 ((htake hi).trans hl)
    refine List.findIdx?_eq_some_iff_getElem.2 ⟨hlt, by rw [he, hbad]; rfl, fun j hj => ?_⟩
    have hadm := hlow j _ hj
      ((htake (hj.trans hi)).symm.trans (List.getElem?_eq_getElem (hj.trans hlt)))
    rw [hadm]
    decide
  simp only [State.loadProgram, hfind]

/-- A preset fails exactly if it names a word that does not exist (log 22). -/
theorem State.preset_cases (s : State) (p : Preset) :
    ((∃ t, s.preset p = .ok t) ∧ ∀ k v, p = .word k v → k < s.cfg.memWords) ∨
    (∃ k v, p = .word k v ∧ s.cfg.memWords ≤ k ∧ s.preset p = .error (.noSuchWord k)) := by
  cases p with
  | reg r v => exact .inl ⟨⟨_, rfl⟩, nofun⟩
  | cmp v => exact .inl ⟨⟨_, rfl⟩, nofun⟩
  | word k v =>
    by_cases hk : k < s.cfg.memWords
    · exact .inl ⟨⟨_, if_pos hk⟩, by rintro _ _ ⟨⟩; exact hk⟩
    · exact .inr ⟨k, v, rfl, not_lt.1 hk, if_neg hk⟩

/-- The presets fail exactly if one names a word that does not exist, and the refusal names one. -/
theorem State.presets_cases (s : State) (ps : List Preset) :
    ((∃ t, s.presets ps = .ok t) ∧ ∀ k v, Preset.word k v ∈ ps → k < s.cfg.memWords) ∨
    (∃ k v, Preset.word k v ∈ ps ∧ s.cfg.memWords ≤ k ∧ s.presets ps = .error (.noSuchWord k)) := by
  induction ps generalizing s with
  | nil => exact .inl ⟨⟨s, rfl⟩, nofun⟩
  | cons p ps ih =>
    obtain ⟨⟨t, ht⟩, hp⟩ | ⟨k, v, hp, hk, he⟩ := s.preset_cases p
    · have hcfg := (State.preset_sameSetup ht).1
      have hps : s.presets (p :: ps) = t.presets ps := by simp only [State.presets, ht]
      rw [hps, ← hcfg]
      rw [← hcfg] at hp
      refine (ih t).imp ?_ ?_
      · rintro ⟨hok, hwords⟩
        refine ⟨hok, fun k v hmem => ?_⟩
        rcases List.mem_cons.1 hmem with e | hmem
        · exact hp k v e.symm
        · exact hwords k v hmem
      · rintro ⟨k, v, hmem, hk, he⟩
        exact ⟨k, v, List.mem_cons_of_mem p hmem, hk, he⟩
    · subst hp
      exact .inr ⟨k, v, List.mem_cons_self, hk, by simp only [State.presets, he]⟩

/-- The launch of an admitted program is the presets of the loaded reset state. -/
theorem launch_admitted {c : Config} {program : List Line}
    (h : ∀ l ∈ program.take c.istoreSlots, (decodeLine l).admitted = true) (m : Memory)
    (ps : List Preset) : launch c m program ps =
      State.presets { State.resetWith c m with store := program.take c.istoreSlots } ps := by
  have hload := (State.loadProgram_ok (s := State.resetWith c m)).2 ⟨h, rfl⟩
  simp only [launch, hload]
  rfl

/-- Settles O54: the loader finds the lowest malformed slot; only presets can refuse the rest. -/
theorem launchRefusesMalformedPrograms : Obligations.LaunchRefusesMalformedPrograms := by
  intro c m program ps
  refine ⟨fun i l hi hl hbad hlow => ?_, fun h hwords => ?_, fun h ⟨k, v, hmem, hk⟩ => ?_⟩
  · have hload := State.loadProgram_error (s := State.resetWith c m) hi hl hbad hlow
    simp only [launch, hload]
  · rw [launch_admitted h]
    obtain ⟨⟨s, hs⟩, -⟩ | ⟨k, v, hmem, hk, -⟩ := State.presets_cases
      { State.resetWith c m with store := program.take c.istoreSlots } ps
    · obtain ⟨-, hstore, -⟩ := State.presets_sameSetup hs
      exact ⟨s, hs, hstore⟩
    · exact absurd (hwords k v hmem) hk.not_gt
  · rw [launch_admitted h]
    obtain ⟨-, hwords⟩ | ⟨k', -, -, hk', he⟩ := State.presets_cases
      { State.resetWith c m with store := program.take c.istoreSlots } ps
    · exact absurd (hwords k v hmem) hk.not_gt
    · exact ⟨k', hk', he⟩

end Sys2Proof.Machine

/-! ## Operands and labels: the kind matrices, and the label resolver

A kind error is the first case of each data executor's `_cases` lemma and of no other executor. The
resolver is looked at through `State.resolveLabel_eq_some_iff`, a search through the populated lines. -/

namespace Sys2Proof.Machine

/-! ### Kind errors (R117, R171) -/

theorem State.moveExec_instrError_iff (s : State) (a b : Operand) :
    (s.moveExec a b).2 = .instrError ↔ moveAllowed a b = false := by
  obtain ⟨hk, he⟩ | ⟨hk, -, he⟩ | ⟨v, hk, -, -, he⟩ := s.moveExec_cases a b <;> simp [he, hk]

theorem State.addExec_instrError_iff (s : State) (a b : Operand) :
    (s.addExec a b).2 = .instrError ↔ moveAllowed a b = false := by
  obtain ⟨hk, he⟩ | ⟨hk, -, he⟩ | ⟨v, w, hk, -, -, he⟩ := s.addExec_cases a b <;> simp [he, hk]

theorem State.compareExec_instrError_iff (s : State) (a b : Operand) :
    (s.compareExec a b).2 = .instrError ↔ compareAllowed a b = false := by
  obtain ⟨hk, he⟩ | ⟨hk, -, he⟩ | ⟨v, w, hk, -, -, he⟩ := s.compareExec_cases a b <;> simp [he, hk]

theorem State.pushExec_instrError_iff (s : State) (a : Operand) :
    (s.pushExec a).2 = .instrError ↔ pushAllowed a = false := by
  obtain ⟨hk, he⟩ | ⟨hk, -, he⟩ | ⟨v, hk, -, -, he⟩ := s.pushExec_cases a <;> simp [he, hk]

theorem State.popExec_instrError_iff (s : State) (d : Operand) :
    (s.popExec d).2 = .instrError ↔ popAllowed d = false := by
  obtain ⟨hk, he⟩ | ⟨hk, -, he⟩ | ⟨hk, -, -, he⟩ := s.popExec_cases d <;> simp [he, hk]

theorem State.jumpExec_ne_instrError (s : State) (m : Cond) (t : Token) :
    (s.jumpExec m t).2 ≠ .instrError := by
  obtain e | e | ⟨a, -, -, e⟩ := s.jumpExec_cases m t <;> simp [e]

/-- CALL pushes a register, a kind that PUSHL accepts. -/
theorem State.callExec_ne_instrError (s : State) (t : Token) :
    (s.callExec t).2 ≠ .instrError := by
  obtain e | ⟨a, -, e⟩ := s.callExec_cases t
  · simp [e]
  · simp [e, State.pushExec_instrError_iff, pushAllowed]

/-- RET pops into a register, a kind that POPL accepts. -/
theorem State.retExec_ne_instrError (s : State) : s.retExec.2 ≠ .instrError := by
  unfold State.retExec
  simp only [State.raise_eq]
  split
  · split <;> simp
  · simp [State.popExec_instrError_iff, popAllowed]

theorem controlAnswer_ne_instrError {i : Instr} {s : State} {p : State × Res}
    (hp : controlAnswer i s p) : p.2 ≠ .instrError := by
  rcases hp with ⟨m, t1, rfl, -⟩ | ⟨t1, -, rfl⟩ | ⟨-, rfl⟩ | ⟨-, rfl⟩
  · exact s.jumpExec_ne_instrError m t1
  · exact s.callExec_ne_instrError t1
  · exact s.retExec_ne_instrError
  · nofun

theorem isData_of_instrError {s t : State} {i : Instr} (he : exec i s = .next t)
    (hr : t.res = some .instrError) : isData i = true := by
  rcases exec_next he with ⟨hi, -⟩ | ⟨-, p, rfl, hp⟩ | ⟨-, rfl⟩
  · exact hi
  · exact absurd (Option.some.inj hr) (controlAnswer_ne_instrError hp)
  · cases hr

/-- Settles O26: each data executor errs exactly where its matrix does not allow the kinds, and an
instruction that answers `InstrError` is one of the five. -/
theorem kindMatricesDecideInstrError : Obligations.KindMatricesDecideInstrError := by
  refine ⟨fun s t1 t2 a b h1 h2 => ?_, fun s t1 a h1 => ?_, fun s t i => isData_of_instrError⟩
  · refine ⟨_, _, _, exec_movl h1 h2 s, exec_addl h1 h2 s, exec_cmpl h1 h2 s, ?_, ?_, ?_⟩
    · simp [State.moveExec_instrError_iff]
    · simp [State.addExec_instrError_iff]
    · simp [State.compareExec_instrError_iff]
  · refine ⟨_, _, exec_pushl h1 s, exec_popl h1 s, ?_, ?_⟩
    · simp [State.pushExec_instrError_iff]
    · simp [State.popExec_instrError_iff]

/-! ### The label resolver (R96) -/

/-- The first index of a line in a store. -/
theorem findIdx?_beq_eq_some_iff {store : List Line} {t : Token} {i : Nat} :
    store.findIdx? (· == t) = some i ↔
      store[i]? = some t ∧ ∀ j : Nat, j < i → store[j]? ≠ some t := by
  rw [List.findIdx?_eq_some_iff_getElem]
  constructor
  · rintro ⟨hi, hit, hlow⟩
    refine ⟨List.getElem?_eq_some_iff.2 ⟨hi, beq_iff_eq.1 hit⟩, fun j hj hjt => ?_⟩
    obtain ⟨_, e⟩ := List.getElem?_eq_some_iff.1 hjt
    exact hlow j hj (beq_iff_eq.2 e)
  · rintro ⟨hit, hlow⟩
    obtain ⟨hi, e⟩ := List.getElem?_eq_some_iff.1 hit
    exact ⟨hi, beq_iff_eq.2 e, fun j hj hjt =>
      hlow j hj (List.getElem?_eq_some_iff.2 ⟨hj.trans hi, beq_iff_eq.1 hjt⟩)⟩

theorem State.resolveLabel_eq_some_iff {s : State} {t : Token} {a : Int} :
    s.resolveLabel t = some a ↔ t.head? = some s.cfg.labelSigil ∧
      ∃ i : Nat, s.store[i]? = some t ∧ (∀ j : Nat, j < i → s.store[j]? ≠ some t) ∧
        a = ((i : Int) + 1) * 4 := by
  simp only [State.resolveLabel, Option.ite_none_right_eq_some, Option.map_eq_some_iff,
    findIdx?_beq_eq_some_iff, and_assoc, eq_comm (a := a)]

theorem State.resolveLabel_eq_none_iff {s : State} {t : Token} :
    s.resolveLabel t = none ↔ t.head? ≠ some s.cfg.labelSigil ∨ t ∉ s.store := by
  unfold State.resolveLabel
  split
  · rename_i hsigil
    simp [hsigil, List.findIdx?_eq_none_iff, List.forall_mem_ne']
  · rename_i hsigil
    simp [hsigil]

/-- Settles O37: the first equal line gives the address; without the sigil or such a line there is none. -/
theorem resolveLabelFindsFirstMatch : Obligations.ResolveLabelFindsFirstMatch :=
  fun _ _ => ⟨fun _ => State.resolveLabel_eq_some_iff, State.resolveLabel_eq_none_iff⟩

/-- Settles O38: the matching slot `i` is populated, so its successor is at most ICOUNT. -/
theorem resolvedAddressIsInRange : Obligations.ResolvedAddressIsInRange := by
  intro s t a h
  obtain ⟨-, i, hi, -, rfl⟩ := State.resolveLabel_eq_some_iff.1 h
  have hlt : i < s.icount := (List.getElem?_eq_some_iff.1 hi).1
  exact ⟨by omega, by omega, by omega, State.validPc_of_resolveLabel h⟩

end Sys2Proof.Machine

/-! ## Data instructions: MOVL, ADDL, and what the five have in common

MOVL and ADDL write a value to a register or to a word, and then the loop advances:
`finishAdvance_setReg` and `finishAdvance_memWrite` give the frame of both. Of all five, an answer that
is not OK is the state itself (`dataAnswer_ok_or_kept`), and one that moves `pc` names `EIP`. -/

namespace Sys2Proof.Machine

/-! ### A write, then the loop's advance (R110, R150) -/

@[simp] theorem State.pc_setReg (s : State) (r : Reg) (v : Word) :
    (s.setReg r v).pc = if r = .eip then v else s.pc := by
  simp [State.pc, eq_comm]

theorem finishAdvance_setReg (s : State) (rd : Reg) (v : Word) :
    ∃ t, finishAdvance (s.setReg rd v, .ok) = .next t ∧ t.res = some .ok ∧
      sameSetup s t ∧ t.cmp = s.cmp ∧ sameBytes s t ∧
      (∀ r, r ≠ .eip → t.reg r = if r = rd then v else s.reg r) ∧
      t.pc = nextSlot (if rd = .eip then v else s.pc) :=
  ⟨_, rfl, rfl, sameSetup_refl s, rfl, fun _ => rfl, fun r hr => by simp [hr], by simp⟩

theorem finishAdvance_memWrite (s : State) {a : Int} (h : validData s.cfg a = true) (v : Word) :
    ∃ t, finishAdvance (s.memWrite a v, .ok) = .next t ∧ t.res = some .ok ∧
      sameSetup s t ∧ t.cmp = s.cmp ∧ sameRegsBut [.eip] s t ∧ t.pc = nextSlot s.pc ∧
      t.memRead a = v ∧ sameBytesOutside a s t := by
  obtain ⟨-, hregs, -, -, hpc, -⟩ := onlyPc_advance (s.memWrite a v) .ok
  exact ⟨_, rfl, rfl, sameSetup_refl s, rfl, hregs, hpc, by simp, sameBytesOutside_memWrite s h v⟩

/-! ### MOVL and ADDL -/

/-- Settles O21: `State.moveExec_cases`, case by case. -/
theorem movlFollowsItsRule : Obligations.MovlFollowsItsRule := by
  intro s t1 t2 a b h1 h2
  simp only [exec_movl h1 h2]
  obtain ⟨hk, he⟩ | ⟨hk, hbad, he⟩ | ⟨v, hk, hv, hd, he⟩ := s.moveExec_cases a b <;> rw [he]
  · exact ⟨fun _ => ⟨_, rfl, onlyPc_advance s _⟩, by simp [hk], by simp [hk]⟩
  · refine ⟨by simp [hk], fun _ _ => ⟨_, rfl, onlyPc_advance s _⟩, fun v _ hv =>
      ⟨fun rd hb => ?_, fun rd o _ hd => ?_⟩⟩
    · simp [hv, hb, State.destOk] at hbad
    · simp [hv, hd] at hbad
  · refine ⟨by simp [hk], by simp [hv, hd], fun v' _ hv' => ?_⟩
    obtain rfl : v = v' := Option.some.inj (hv.symm.trans hv')
    refine ⟨?_, ?_⟩
    · rintro rd rfl
      exact finishAdvance_setReg s rd v
    · rintro rd o rfl -
      exact finishAdvance_memWrite s hd v

/-- Settles O22: `State.addExec_cases`, case by case; a destination with a value has a valid address. -/
theorem addlFollowsItsRule : Obligations.AddlFollowsItsRule := by
  intro s t1 t2 a b h1 h2
  simp only [exec_addl h1 h2]
  obtain ⟨hk, he⟩ | ⟨hk, hbad, he⟩ | ⟨v, w, hk, hv, hw, he⟩ := s.addExec_cases a b <;> rw [he]
  · exact ⟨fun _ => ⟨_, rfl, onlyPc_advance s _⟩, by simp [hk], by simp [hk]⟩
  · refine ⟨by simp [hk], fun _ _ => ⟨_, rfl, onlyPc_advance s _⟩, fun v w _ hv hw => ?_⟩
    simp [hv, hw] at hbad
  · refine ⟨by simp [hk], by simp [hv, hw], fun v' w' _ hv' hw' => ?_⟩
    obtain rfl : v = v' := Option.some.inj (hv.symm.trans hv')
    obtain rfl : w = w' := Option.some.inj (hw.symm.trans hw')
    rw [addResult_eq]
    refine ⟨?_, ?_⟩
    · rintro rd rfl
      exact finishAdvance_setReg s rd (w + v)
    · rintro rd o rfl
      exact finishAdvance_memWrite s (s.destOk_of_value _ w hw) (w + v)

/-- Settles O53: the sums and differences are those of 32-bit words, evaluated. -/
theorem arithmeticTable : Obligations.ArithmeticTable := by
  simp only [Obligations.ArithmeticTable, addResult_eq, compareResult_eq]
  decide

/-! ### The common frame of the five (R110) -/

theorem State.moveExec_ok_or_kept (s : State) (a b : Operand) :
    (s.moveExec a b).2 = .ok ∨ (s.moveExec a b).1 = s := by
  obtain ⟨-, e⟩ | ⟨-, -, e⟩ | ⟨v, -, -, -, e⟩ := s.moveExec_cases a b <;> simp [e]

theorem State.addExec_ok_or_kept (s : State) (a b : Operand) :
    (s.addExec a b).2 = .ok ∨ (s.addExec a b).1 = s := by
  obtain ⟨-, e⟩ | ⟨-, -, e⟩ | ⟨v, w, -, -, -, e⟩ := s.addExec_cases a b <;> simp [e]

theorem State.compareExec_ok_or_kept (s : State) (a b : Operand) :
    (s.compareExec a b).2 = .ok ∨ (s.compareExec a b).1 = s := by
  obtain ⟨-, e⟩ | ⟨-, -, e⟩ | ⟨v, w, -, -, -, e⟩ := s.compareExec_cases a b <;> simp [e]

theorem State.pushExec_ok_or_kept (s : State) (a : Operand) :
    (s.pushExec a).2 = .ok ∨ (s.pushExec a).1 = s := by
  obtain ⟨-, e⟩ | ⟨-, -, e⟩ | ⟨v, -, -, -, e⟩ := s.pushExec_cases a <;> simp [e]

theorem State.popExec_ok_or_kept (s : State) (d : Operand) :
    (s.popExec d).2 = .ok ∨ (s.popExec d).1 = s := by
  obtain ⟨-, e⟩ | ⟨-, -, e⟩ | ⟨-, -, -, e⟩ := s.popExec_cases d <;> simp [e]

theorem dataAnswer_ok_or_kept {i : Instr} {s : State} {p : State × Res} (hp : dataAnswer i s p) :
    p.2 = .ok ∨ p.1 = s := by
  rcases hp with ⟨t1, t2, a, b, -, -, ⟨-, rfl⟩ | ⟨-, rfl⟩ | ⟨-, rfl⟩⟩ | ⟨t1, a, -, ⟨-, rfl⟩ | ⟨-, rfl⟩⟩
  · exact s.moveExec_ok_or_kept a b
  · exact s.addExec_ok_or_kept a b
  · exact s.compareExec_ok_or_kept a b
  · exact s.pushExec_ok_or_kept a
  · exact s.popExec_ok_or_kept a

/-- The write of a destination moves `pc` only where the destination is `EIP`. -/
theorem State.writeOperand_pc (s : State) (d : Operand) (v : Word) :
    (s.writeOperand d v).pc = s.pc ∨ d = .register .eip := by
  cases d with
  | register r => by_cases hr : r = .eip <;> simp [hr]
  | memory r o => exact .inl rfl
  | constant c => exact .inl rfl
  | invalid => exact .inl rfl

theorem State.moveExec_pc (s : State) (a b : Operand) :
    (s.moveExec a b).1.pc = s.pc ∨ b = .register .eip := by
  obtain ⟨-, e⟩ | ⟨-, -, e⟩ | ⟨v, -, -, -, e⟩ := s.moveExec_cases a b <;> rw [e]
  · exact .inl rfl
  · exact .inl rfl
  · exact s.writeOperand_pc b v

theorem State.addExec_pc (s : State) (a b : Operand) :
    (s.addExec a b).1.pc = s.pc ∨ b = .register .eip := by
  obtain ⟨-, e⟩ | ⟨-, -, e⟩ | ⟨v, w, -, -, -, e⟩ := s.addExec_cases a b <;> rw [e]
  · exact .inl rfl
  · exact .inl rfl
  · exact s.writeOperand_pc b _

theorem State.compareExec_pc (s : State) (a b : Operand) : (s.compareExec a b).1.pc = s.pc := by
  obtain ⟨-, e⟩ | ⟨-, -, e⟩ | ⟨v, w, -, -, -, e⟩ := s.compareExec_cases a b <;> simp [e]

theorem State.pushExec_pc (s : State) (a : Operand) : (s.pushExec a).1.pc = s.pc := by
  obtain ⟨-, e⟩ | ⟨-, -, e⟩ | ⟨v, -, -, -, e⟩ := s.pushExec_cases a <;> simp [e]

theorem State.popExec_pc (s : State) (d : Operand) :
    (s.popExec d).1.pc = s.pc ∨ d = .register .eip := by
  obtain ⟨-, e⟩ | ⟨-, -, e⟩ | ⟨-, -, -, e⟩ := s.popExec_cases d <;> rw [e]
  · exact .inl rfl
  · exact .inl rfl
  · exact s.writeOperand_pc d _

theorem eq_eip_of_decodeOperand {t : Token} {d : Operand} (h : decodeOperand t = .operand d)
    (hd : d = .register .eip) : t = "%EIP".toList :=
  (registerTokenExactly t .eip).1 (hd ▸ h)

/-- Of the five, only one that names `EIP` as its destination moves `pc` itself (R110). -/
theorem dataAnswer_pc {i : Instr} {s : State} {p : State × Res} (hp : dataAnswer i s p) :
    p.1.pc = s.pc ∨ ∃ t1, i = .movl t1 "%EIP".toList ∨ i = .addl t1 "%EIP".toList ∨
      i = .popl "%EIP".toList := by
  rcases hp with ⟨t1, t2, a, b, -, h2, ⟨rfl, rfl⟩ | ⟨rfl, rfl⟩ | ⟨-, rfl⟩⟩ |
    ⟨t1, a, h1, ⟨-, rfl⟩ | ⟨rfl, rfl⟩⟩
  · exact (s.moveExec_pc a b).imp_right fun hb => ⟨t1, .inl (eq_eip_of_decodeOperand h2 hb ▸ rfl)⟩
  · exact (s.addExec_pc a b).imp_right fun hb => ⟨t1, .inr (.inl (eq_eip_of_decodeOperand h2 hb ▸ rfl))⟩
  · exact .inl (s.compareExec_pc a b)
  · exact .inl (s.pushExec_pc a)
  · exact (s.popExec_pc a).imp_right fun ha => ⟨t1, .inr (.inr (eq_eip_of_decodeOperand h1 ha ▸ rfl))⟩

/-- Settles O27: one lemma on the executors' answers for each clause, and the loop's advance. -/
theorem dataInstructionsShareTheirFrame : Obligations.DataInstructionsShareTheirFrame := by
  intro s t i hi he
  rcases exec_next he with ⟨-, p, rfl, hp⟩ | ⟨hno, -⟩ | ⟨rfl, -⟩
  · refine ⟨fun e hres hne => ?_, fun hcmp => (dataAnswer_cmp hp).resolve_left hcmp, fun hpc => ?_⟩
    · obtain rfl : p.2 = e := Option.some.inj hres
      rw [(dataAnswer_ok_or_kept hp).resolve_left hne]
      exact onlyPc_advance s p.2
    · refine (dataAnswer_pc hp).resolve_left fun hkept => hpc ?_
      rw [State.pc_setRes, State.pc_advance, hkept]
  · exact absurd hi (by simp [hno])
  · cases hi

/-! ### Push, then pop -/

theorem nextSlot_of_toInt_eq_sub {p q : Word} (h : p.toInt = q.toInt - 4) : nextSlot p = q := by
  rw [nextSlot, h, Int.sub_add_cancel, wrap32, BitVec.ofInt_toInt]

/-- Settles O44: the rule of PUSHL, then the rule of POPL in the state it left. -/
theorem pushThenPopRestores : Obligations.PushThenPopRestores := by
  intro s r hr hn
  have hdec := decodeOperand_register r
  obtain ⟨-, -, hpush⟩ := pushlFollowsItsRule s _ _ hdec
  obtain ⟨t, ht, -, ⟨hcfg, -⟩, hcmp, hregs, hesp, hpc, hword, hbytes⟩ :=
    hpush (s.reg r) (s.value_register r) hn
  obtain ⟨-, -, hpop, -⟩ := poplFollowsItsRule t _ _ hdec
  rw [hesp, hcfg, hword] at hpop
  obtain ⟨u, hu, hres, -, hcmp', hbytes', hregs', hesp', hpc'⟩ := hpop r rfl hn
  refine ⟨t, u, ht, hu, hres, fun q hq => ?_, ?_, hcmp'.trans hcmp, fun a ha => ?_⟩
  · by_cases hqsp : q = .esp
    · rw [hqsp, hesp', if_neg hr]
      exact nextSlot_of_toInt_eq_sub hesp
    · rw [hregs' q hqsp hq]
      split
      · next hqr => rw [hqr]
      · exact hregs q (by simp [hqsp, hq])
  · rw [hpc', hpc]
    split
    · next hpcreg => rw [hpcreg, State.pc]
    · rfl
  · rw [hbytes', hbytes a ha]

end Sys2Proof.Machine

/-! ## Control transfer: the jumps, CALL and RET

An executor whose label resolves or not, and whose stack address is valid or not, has one answer; each is
said once, and the rules below read the frame off it. -/

namespace Sys2Proof.Machine

/-! ### The jumps (R130 to R135) -/

/-- A jump to a label that resolves looks at its condition alone: the label's address is valid (R97). -/
theorem State.jumpExec_of_resolves {s : State} {t : Token} {a : Int} (h : s.resolveLabel t = some a)
    (m : Cond) : s.jumpExec m t =
      (s.setPc (if condHolds m s.cmp = true then wrap32 a else nextSlot s.pc), .ok) := by
  simp only [State.jumpExec, h, State.validPc_of_resolveLabel h, if_true]
  split <;> rfl

theorem State.jumpExec_of_unresolved {s : State} {t : Token} (h : s.resolveLabel t = none) (m : Cond) :
    s.jumpExec m t = (s.advance, .pcError) := by
  simp only [State.jumpExec, h, State.raise_eq]

/-- A jump to a label that resolves, in terms of a test `p` of `cmp` that says the same as its condition. -/
theorem finishInPlace_jumpExec {s : State} {t : Token} {a : Int} (h : s.resolveLabel t = some a)
    {m : Cond} {p : Prop} [Decidable p] (hp : condHolds m s.cmp = true ↔ p) :
    ∃ u, finishInPlace (s.jumpExec m t) = .next u ∧
      onlyPc (if p then wrap32 a else nextSlot s.pc) .ok s u := by
  refine ⟨_, rfl, ?_⟩
  rw [State.jumpExec_of_resolves h, if_congr hp rfl rfl]
  exact onlyPc_setPc s _ .ok

theorem finishInPlace_jumpExec_unresolved {s : State} {t : Token} (h : s.resolveLabel t = none)
    (m : Cond) : ∃ u, finishInPlace (s.jumpExec m t) = .next u ∧
      onlyPc (nextSlot s.pc) .pcError s u := by
  refine ⟨_, rfl, ?_⟩
  rw [State.jumpExec_of_unresolved h]
  exact onlyPc_advance s .pcError

theorem condHolds_equal_iff (c : Word) : condHolds .equal c = true ↔ c = 0#32 := by
  rw [condHolds, decide_eq_true_iff, ← BitVec.toInt_inj, BitVec.toInt_zero]

theorem condHolds_notEqual_iff (c : Word) : condHolds .notEqual c = true ↔ c ≠ 0#32 := by
  rw [condHolds, decide_eq_true_iff, Ne, ← BitVec.toInt_zero (w := 32), BitVec.toInt_inj]

/-- Settles O39: the five differ in the condition alone. -/
theorem jumpsFollowTheirRules : Obligations.JumpsFollowTheirRules := by
  refine fun s t1 => ⟨fun a h => ⟨?_, ?_, ?_, ?_, ?_⟩, fun h i hi => ?_⟩
  · exact finishInPlace_jumpExec h (m := .always) (p := True) (iff_true_intro rfl)
  · exact finishInPlace_jumpExec h (condHolds_equal_iff s.cmp)
  · exact finishInPlace_jumpExec h (condHolds_notEqual_iff s.cmp)
  · exact finishInPlace_jumpExec h (m := .less) decide_eq_true_iff
  · exact finishInPlace_jumpExec h (m := .greater) decide_eq_true_iff
  · simp only [List.mem_cons, List.not_mem_nil, or_false] at hi
    obtain rfl | rfl | rfl | rfl | rfl := hi
    · exact finishInPlace_jumpExec_unresolved h .always
    · exact finishInPlace_jumpExec_unresolved h .equal
    · exact finishInPlace_jumpExec_unresolved h .notEqual
    · exact finishInPlace_jumpExec_unresolved h .less
    · exact finishInPlace_jumpExec_unresolved h .greater

/-! ### CALL (R136) -/

@[simp] theorem State.memRead_setPc (s : State) (p : Word) (a : Int) :
    (s.setPc p).memRead a = s.memRead a := (rfl)

theorem State.pushExec_register (s : State) (r : Reg)
    (h : validData s.cfg ((s.reg .esp).toInt - 4) = true) :
    s.pushExec (.register r) = ((s.setReg .esp (wrap32 ((s.reg .esp).toInt - 4))).memWrite
      ((s.reg .esp).toInt - 4) (s.reg r), .ok) := by
  obtain ⟨hk, -⟩ | ⟨-, hbad, -⟩ | ⟨v, -, hv, -, he⟩ := s.pushExec_cases (.register r)
  · cases hk
  · simp [h] at hbad
  · obtain rfl : s.reg r = v := Option.some.inj hv
    exact he

theorem State.pushExec_register_no_room (s : State) (r : Reg)
    (h : validData s.cfg ((s.reg .esp).toInt - 4) = false) :
    s.pushExec (.register r) = (s, .memError) := by
  obtain ⟨hk, -⟩ | ⟨-, -, he⟩ | ⟨v, -, -, hroom, -⟩ := s.pushExec_cases (.register r)
  · cases hk
  · exact he
  · simp [h] at hroom

/-- CALL to a label that resolves pushes the address of the next slot, and jumps whatever the push
answers (D26). -/
theorem State.callExec_of_resolves {s : State} {t : Token} {a : Int} (h : s.resolveLabel t = some a) :
    s.callExec t = ((s.advance.pushExec (.register .eip)).1.setPc (wrap32 a),
      (s.advance.pushExec (.register .eip)).2) := by
  simp only [State.callExec, h, State.validPc_of_resolveLabel h, if_true]

theorem State.callExec_of_unresolved {s : State} {t : Token} (h : s.resolveLabel t = none) :
    s.callExec t = (s, .pcError) := by
  simp only [State.callExec, h, State.raise_eq]

theorem exec_call (t : Token) (s : State) : exec (.call t) s = finishInPlace (s.callExec t) := (rfl)

/-- Settles O40: the push of `State.pushExec_register` from the advanced state, then the jump. -/
theorem callPushesReturnAddress : Obligations.CallPushesReturnAddress := by
  intro s t1 a n h hn
  have hesp : s.advance.reg .esp = s.reg .esp := by simp
  rw [exec_call, State.callExec_of_resolves h, s.advance.pushExec_register .eip (by rwa [hesp]), hesp]
  refine ⟨_, rfl, rfl, sameSetup_refl s, rfl, fun r hr => ?_, ?_, by simp, ?_,
    sameBytesOutside_memWrite (s.advance.setReg .esp _) hn _⟩
  · have hr : r ≠ .esp ∧ r ≠ .eip := by simpa using hr
    simp [hr]
  · simpa using wrap32_toInt_of_validData hn
  · simp [n, State.pc]

/-- Settles O41: an unresolved label is found before anything is written, and a push without room answers
`MemError` in the state it was given. -/
theorem callFailures : Obligations.CallFailures := by
  refine fun s t1 => ⟨fun h => ?_, fun a h hn => ?_⟩
  · rw [exec_call, State.callExec_of_unresolved h]
    exact ⟨_, rfl, rfl, rfl⟩
  · rw [exec_call, State.callExec_of_resolves h,
      s.advance.pushExec_register_no_room .eip (by simpa using hn)]
    exact ⟨_, rfl, onlyPc_setPc s _ .memError⟩

/-! ### RET (R137) -/

/-- One past the last populated slot is valid, with each of its four bytes (R97, D24). -/
theorem State.validPc_iff (s : State) (a : Int) :
    s.validPc a = true ↔ 0 ≤ a ∧ a ≤ (s.icount : Int) * 4 + 3 := by
  rw [State.validPc, decide_eq_true_iff, idx]
  omega

theorem State.popExec_eip {s : State} (h : validData s.cfg (s.reg .esp).toInt = true) :
    s.popExec (.register .eip) = ((s.setPc (s.memRead (s.reg .esp).toInt)).setReg .esp
      (nextSlot (s.reg .esp)), .ok) := by
  obtain ⟨hk, -⟩ | ⟨-, hbad, -⟩ | ⟨-, -, -, he⟩ := s.popExec_cases (.register .eip)
  · cases hk
  · simp [h, State.destOk] at hbad
  · rw [he]
    rfl

theorem State.popExec_eip_no_word {s : State} (h : validData s.cfg (s.reg .esp).toInt = false) :
    s.popExec (.register .eip) = (s, .memError) := by
  obtain ⟨hk, -⟩ | ⟨-, -, he⟩ | ⟨-, hn, -⟩ := s.popExec_cases (.register .eip)
  · cases hk
  · exact he
  · simp [h] at hn

/-- RET with a word to pop takes it as `pc`, and its range decides the result alone (C6). -/
theorem State.retExec_eq {s : State} (h : validData s.cfg (s.reg .esp).toInt = true) :
    s.retExec = ((s.setPc (s.memRead (s.reg .esp).toInt)).setReg .esp (nextSlot (s.reg .esp)),
      if 0 ≤ (s.memRead (s.reg .esp).toInt).toInt ∧
        (s.memRead (s.reg .esp).toInt).toInt ≤ (s.icount : Int) * 4 + 3 then .ok else .pcError) := by
  have hpc (w v : Word) : ((s.setPc w).setReg .esp v).pc = w := by simp
  have hcount (w v : Word) : ((s.setPc w).setReg .esp v).icount = s.icount := rfl
  simp only [State.retExec, State.popExec_eip h, if_true, State.validPc_iff, hpc, hcount,
    State.raise_eq]
  split <;> rfl

theorem State.retExec_no_word {s : State} (h : validData s.cfg (s.reg .esp).toInt = false) :
    s.retExec = (s, .memError) := by
  rw [State.retExec, State.popExec_eip_no_word h]
  rfl

theorem exec_ret (s : State) : exec .ret s = finishInPlace s.retExec := (rfl)

/-- Settles O42: RET with a word to pop and without one. -/
theorem retFollowsItsRule : Obligations.RetFollowsItsRule := by
  refine fun s => ⟨fun hn => ?_, fun hn => ?_⟩
  · rw [exec_ret, State.retExec_eq hn]
    refine ⟨_, rfl, sameSetup_refl s, rfl, fun _ => rfl, fun r hr => ?_, by simp, by simp, rfl⟩
    have hr : r ≠ .esp ∧ r ≠ .eip := by simpa using hr
    simp [hr]
  · rw [exec_ret, State.retExec_no_word hn]
    exact ⟨_, rfl, rfl, rfl⟩

/-! ### Call, then return -/

/-- A fetched line that is no skip is one of the populated lines (R31). -/
theorem State.pc_lt_of_fetchLine {s : State} (h : decodeLine s.fetchLine ≠ .skip) :
    s.pc.toInt < 4 * (s.icount : Int) := by
  by_contra hpc
  exact h (by rw [State.fetchLine_unpopulated (not_lt.1 hpc)]; rfl)

theorem State.fetchLine_of_pc {s : State} {i : Nat} (h : s.pc.toInt = 4 * (i : Int)) :
    s.fetchLine = s.line i := by
  rw [State.fetchLine, h, idx, Int.mul_ediv_cancel_left _ (by decide), Int.toNat_natCast]

theorem State.line_congr {s t : State} (h : t.store = s.store) (i : Nat) : t.line i = s.line i := by
  rw [State.line, State.line, h]

/-- Settles O43: the rule of CALL, then the rule of RET in the state it left; the CALL is a populated
line, so the address of the next slot is valid. -/
theorem callThenReturnComesBack : Obligations.CallThenReturnComesBack := by
  intro s t1 i hinv ⟨hh, hf⟩ hlo hhi hcall hlabel hi hret hn
  obtain ⟨⟨-, -, -, hslots, -⟩, -⟩ := hinv
  obtain ⟨t, ht, -, ⟨hcfg, hstore, hhalt, hfault⟩, hcmp, hregs, hesp, hpc, hword, hbytes⟩ :=
    callPushesReturnAddress s t1 _ hlabel hn
  have hstep : step s = .next t := by
    rw [step_of_fetchOk hh hf ((fetchOk_iff s).2 ⟨hlo, hhi⟩), hcall, ht]
  have hpci : t.pc.toInt = 4 * (i : Int) := by
    rw [hpc, wrap32, toInt_ofInt_of_inInt32 ⟨by omega, by omega⟩]
  have hrange : 0 ≤ (nextSlot s.pc).toInt ∧ (nextSlot s.pc).toInt ≤ (t.icount : Int) * 4 + 3 := by
    have hpop := State.pc_lt_of_fetchLine (s := s) (by rw [hcall]; nofun)
    rw [nextSlot_toInt (by omega), State.icount, hstore]
    simp only [State.icount] at hpop
    omega
  obtain ⟨hrule, -⟩ := retFollowsItsRule t
  rw [hesp, hcfg, hword, if_pos hrange] at hrule
  obtain ⟨u, hu, -, hcmp', hbytes', hregs', hesp', hpc', hres⟩ := hrule hn
  have hstep' : step t = .next u := by
    rw [step_of_fetchOk (hhalt.trans hh) (hfault.trans hf) ((fetchOk_iff t).2 (by rw [hcfg]; omega)),
      State.fetchLine_of_pc hpci, State.line_congr hstore, hret, hu]
  refine ⟨u, by rw [run_succ hstep, run_succ hstep', run_zero], hpc', hres, fun r hr => ?_,
    hcmp'.trans hcmp, fun a ha => (hbytes' a).trans (hbytes a ha)⟩
  by_cases hsp : r = .esp
  · rw [hsp, hesp']
    exact nextSlot_of_toInt_eq_sub hesp
  · have hr : r ∉ [Reg.esp, Reg.eip] := by simp [hsp, hr]
    exact (hregs' r hr).trans (hregs r hr)

end Sys2Proof.Machine

/-! ## The fetch-execute loop: the failed fetch, END, the skipped line, and the livelock

The answer of each step is a named state already (`State.takeFetchFault`, `State.halt`,
`State.advance`), so its frame is that state's. A livelock goes on because no step reads `res`: every
state that differs from a livelock in `res` alone is a livelock too. -/

namespace Sys2Proof.Machine

theorem fetchOk_eq_false_iff (s : State) : fetchOk s.cfg s.pc.toInt = false ↔
    s.pc.toInt < 0 ∨ 4 * (s.cfg.istoreSlots : Int) ≤ s.pc.toInt := by
  rw [Bool.eq_false_iff, Ne, fetchOk_iff]
  omega

/-- Settles O14: the step is `step_of_not_fetchOk`, and the next one finds the fault flag set. -/
theorem fetchOutsideStoreFaults : Obligations.FetchOutsideStoreFaults := by
  intro s hh hf hpc
  exact ⟨s.takeFetchFault, step_of_not_fetchOk hh hf ((fetchOk_eq_false_iff s).2 hpc), rfl, rfl,
    step_of_faulted hh rfl⟩

/-- Settles O18: `State.halt` sets `halted` alone, and `State.setRes` the status output. -/
theorem endHalts : Obligations.EndHalts :=
  fun s => ⟨s.halt.setRes .ok, exec_endMarker s, rfl, rfl, fun _ => rfl, rfl, fun _ => rfl, rfl, rfl,
    rfl⟩

/-- A fetched line is skipped exactly when its first token is no mnemonic (R71, R152, R154). -/
theorem decodeLine_eq_skip_iff (l : Line) :
    decodeLine l = .skip ↔ (tokenize l).1 ∉ mnemonics := by
  have hline : decodeLine l = instrOf (tokenize l).1 (tokenize l).2.1 (tokenize l).2.2 :=
    decodeLine_of_tokenize rfl
  rw [hline, instrOf_eq_skip_iff]

/-- Settles O17: such a line decodes to a skip, and a skip only advances `pc`. -/
theorem unknownMnemonicIsSkipped : Obligations.UnknownMnemonicIsSkipped := by
  have hskip (s : State) :
      ∃ t, exec .skip s = .next t ∧ onlyPc (wrap32 (s.pc.toInt + 4)) .ok s t :=
    ⟨_, exec_skip s, onlyPc_advance s .ok⟩
  refine ⟨hskip, fun s hh hf hlo hhi hm => ?_⟩
  rw [step_of_fetchOk hh hf ((fetchOk_iff s).2 ⟨hlo, hhi⟩), (decodeLine_eq_skip_iff _).2 hm]
  exact hskip s

/-! ### The livelock -/

theorem sameButRes_refl (s : State) : sameButRes s s := rfl

theorem sameButRes_trans {s t u : State} (hst : sameButRes s t) (htu : sameButRes t u) :
    sameButRes s u := by
  obtain ⟨o, rfl⟩ := (sameButRes_iff s t).1 hst
  exact htu

theorem sameButRes_halted {s t : State} (h : sameButRes s t) : t.halted = s.halted := by
  obtain ⟨o, rfl⟩ := (sameButRes_iff s t).1 h
  rfl

/-- The step of a livelock leads to a livelock: `res`, the one thing that may differ, is never read
(R12, R194). -/
theorem livelock_step {s t : State} (hs : step s = .next t) (h : sameButRes s t) : t.livelock := by
  obtain ⟨hnext, -, -⟩ := resultOutputIsNeverRead s t h
  exact hnext t hs

theorem run_livelock (n : Nat) {s : State} (h : s.livelock) :
    ∃ t, Host.Core.run Sys2Proof.core n s = .next t ∧ sameButRes s t := by
  induction n generalizing s with
  | zero => exact ⟨s, run_zero s, sameButRes_refl s⟩
  | succ n ih =>
    obtain ⟨t, hs, hst⟩ := h
    obtain ⟨u, hrun, htu⟩ := ih (livelock_step hs hst)
    exact ⟨u, by rw [run_succ hs, hrun], sameButRes_trans hst htu⟩

/-- Settles O46: a run of a livelock stays there, and a state that takes a step has not halted. -/
theorem livelockLastsForever : Obligations.LivelockLastsForever := by
  intro s h n
  obtain ⟨t, hrun, hst⟩ := run_livelock n h
  obtain ⟨_, hs, -⟩ := h
  obtain ⟨hh, -⟩ := step_next hs
  exact ⟨t, hrun, hst, (sameButRes_halted hst).trans hh⟩

end Sys2Proof.Machine
